-- ==== Sys2Proof/Word.lean ====
section
/-! DEFINITION. The words of the block and the small closed types that its operands and codes range over. -/

namespace Sys2Proof

/-- The 128-bit command word CW on `cmd_data` (30_encoding.md R59, R73). -/
abbrev CommandWord := BitVec 128

/-- The 128-bit response word RW on `rsp_data` (30_encoding.md R70). -/
abbrev ResponseWord := BitVec 128

/-- `formatVersion` (00_scope.md R3, 30_encoding.md R61). -/
inductive Version where
  /-- Two granules per frame, a 9-bit reservoir-offset field. -/
  | v1
  /-- One granule per frame, an 8-bit reservoir-offset field. -/
  | v2
deriving DecidableEq, Repr

/-- `channelCount` (00_scope.md R3, 30_encoding.md R62): no other count can be encoded. -/
inductive Channels where
  /-- One channel. -/
  | mono
  /-- Two channels. -/
  | stereo
deriving DecidableEq, Repr

/-- The four commands by name (30_encoding.md R60), as the response word's OPE field repeats them. -/
inductive Opcode where
  | beginFrame
  | maxBits
  | adjust
  | endFrame
deriving DecidableEq, Repr

/-- The side-information vector of END_FRAME: `codedLengthBits` of the slots (granule, channel) =
(0,0), (0,1), (1,0), (1,1) (10_state.md R29, 30_encoding.md R67, 42_end_frame.md R125). -/
structure Slots where
  s0 : BitVec 12
  s1 : BitVec 12
  s2 : BitVec 12
  s3 : BitVec 12
deriving DecidableEq, Repr

end Sys2Proof
end

