-- ==== Sys2Proof/Syntax.lean ====
section
/-! DEFINITION. The command set BRSM-CMD/1: one constructor per row of spec/opcode_table.json. -/

namespace Sys2Proof

/-- A decoded command (30_encoding.md R59, R60). Every operand has exactly the width of its field, so that every
term of this type can be encoded (R69). -/
inductive Instr where
  /-- BEGIN_FRAME: VER, M (accepted and unused, R68), FL, RO (40_begin_frame.md R80). -/
  | beginFrame (ver : Version) (m fl ro : BitVec 16)
  /-- MAX_BITS: CH, M, PE as a binary64 pattern (41_granule.md R95). -/
  | maxBits (ch : Channels) (m : BitVec 16) (pe : BitVec 64)
  /-- ADJUST: CH, M, CL (41_granule.md R104). -/
  | adjust (ch : Channels) (m : BitVec 16) (cl : BitVec 12)
  /-- END_FRAME: VER, CH, M, S0 to S3 (42_end_frame.md R120). -/
  | endFrame (ver : Version) (ch : Channels) (m : BitVec 16) (slots : Slots)
deriving DecidableEq, Repr

end Sys2Proof
end

