-- ==== Sys2Proof/Decode.lean ====
section
/-! DEFINITION. The decoder and the encoder of the command word, from the tables of 30_encoding.md R59 to R69. -/

namespace Sys2Proof

/-- VER = CW[2]: 0 = V1, 1 = V2 (30_encoding.md R61). -/
def Version.ofBit (b : Bool) : Version := if b then .v2 else .v1

/-- The VER bit of a version (30_encoding.md R61). -/
def Version.bit : Version → BitVec 1
  | .v1 => 0#1
  | .v2 => 1#1

/-- CH = CW[3]: the channel count less one (30_encoding.md R62). -/
def Channels.ofBit (b : Bool) : Channels := if b then .stereo else .mono

/-- The CH bit of a channel count (30_encoding.md R62). -/
def Channels.bit : Channels → BitVec 1
  | .mono => 0#1
  | .stereo => 1#1

/-- OP of a command (30_encoding.md R60 and section 6). -/
def Opcode.code : Opcode → BitVec 2
  | .beginFrame => 0#2
  | .maxBits => 1#2
  | .adjust => 2#2
  | .endFrame => 3#2

/-- The command an OP value selects: all four values are commands (30_encoding.md R60, R69). -/
def Opcode.ofCode (c : BitVec 2) : Opcode :=
  if c = 0#2 then .beginFrame else if c = 1#2 then .maxBits else if c = 2#2 then .adjust else .endFrame

/-- The command an instruction is. -/
def Instr.opcode : Instr → Opcode
  | .beginFrame _ _ _ _ => .beginFrame
  | .maxBits _ _ _ => .maxBits
  | .adjust _ _ _ => .adjust
  | .endFrame _ _ _ _ => .endFrame

/-- Field CW[lo + width - 1 : lo] (00_scope.md R14). -/
def CommandWord.field (cw : CommandWord) (lo width : Nat) : BitVec width := cw.extractLsb' lo width

/-- The decoder of 30_encoding.md R69: total, "Every 128-bit word decodes to exactly one command". -/
def decode (cw : CommandWord) : Instr :=
  let ver := Version.ofBit (cw.getLsbD 2)
  let ch := Channels.ofBit (cw.getLsbD 3)
  let m := CommandWord.field cw 8 16
  match Opcode.ofCode (CommandWord.field cw 0 2) with
  | .beginFrame => .beginFrame ver m (CommandWord.field cw 24 16) (CommandWord.field cw 40 16)
  | .maxBits => .maxBits ch m (CommandWord.field cw 64 64)
  | .adjust => .adjust ch m (CommandWord.field cw 24 12)
  | .endFrame => .endFrame ver ch m
      ⟨CommandWord.field cw 24 12, CommandWord.field cw 36 12, CommandWord.field cw 48 12, CommandWord.field cw 60 12⟩

/-- The bits every layout shares, least significant last: payload, M, the ignored CW[7:4] as zeros, CH, VER, OP
(30_encoding.md R59). -/
def encodeWord (payload : BitVec 104) (m : BitVec 16) (ch ver : BitVec 1) (op : Opcode) : CommandWord :=
  payload ++ m ++ 0#4 ++ ch ++ ver ++ op.code

/-- The encoder: the layout of 30_encoding.md R59, with 0 in every ignored bit as an assembler writes it (R68). The M of a
BEGIN_FRAME is written, as the programs of 95_test_vectors.md do. -/
def encode : Instr → CommandWord
  | .beginFrame ver m fl ro => encodeWord (0#72 ++ ro ++ fl) m 0#1 ver.bit .beginFrame
  | .maxBits ch m pe => encodeWord (pe ++ 0#40) m ch.bit 0#1 .maxBits
  | .adjust ch m cl => encodeWord (0#92 ++ cl) m ch.bit 0#1 .adjust
  | .endFrame ver ch m t => encodeWord (0#56 ++ t.s3 ++ t.s2 ++ t.s1 ++ t.s0) m ch.bit ver.bit .endFrame

/-- The bits of a command word that the table of 30_encoding.md R59 does not mark "ignored", by command. The M field of
BEGIN_FRAME is marked ignored there, so it is not among them. -/
def usedBits : Opcode → CommandWord
  | .beginFrame => 0x000000000000000000FFFFFFFF000007#128
  | .maxBits => 0xFFFFFFFFFFFFFFFF0000000000FFFF0B#128
  | .adjust => 0x00000000000000000000000FFFFFFF0B#128
  | .endFrame => 0x00000000000000FFFFFFFFFFFFFFFF0F#128

/-- The instruction read from a word given as in spec/opcode_table.json: `nbits` bits, bit 0 the least significant, every bit
above them 0. The command port is one 128-bit bus, so bit numbers are the spec's own (20_memory.md R41, log entry 9), and no
command is longer than one word (30_encoding.md R73). -/
def decodeTableWord (nbits w : Nat) : Option Instr :=
  if nbits ≤ 128 then some (decode (BitVec.ofNat 128 (w % 2 ^ nbits))) else none

end Sys2Proof
end

