-- ==== Sys2Proof/Config.lean ====
section
/-! DEFINITION. What is fixed when the block is built (00_scope.md R12, R13): the type of the policy settings, the default one, and the
fixed constants. The setting in use and the latencies are data of State (fields `params` and `delays`, log entries 4 and 2), so that
every statement over states covers every block. -/

namespace Sys2Proof

/-- The policy parameters that a model may take as arguments (00_scope.md R13, 93_implementation_defined.md U5). -/
structure Params where
  /-- `K_PE`, the entropy-to-bits multiplier, a binary64 pattern. -/
  kPe : BitVec 64
  /-- `WANT_MIN`: an extra allowance only for a wish above it. -/
  wantMin : Int
  /-- `DRAW_NUM` over `DRAW_DEN`: the share of the occupancy that may be drawn. -/
  drawNum : Int
  drawDen : Int
  /-- `HIGH_NUM` over `HIGH_DEN`: the share of the capacity above which drawdown is forced. -/
  highNum : Int
  highDen : Int
deriving DecidableEq, Repr

/-- A legal setting (00_scope.md R13). -/
structure Params.Legal (p : Params) : Prop where
  wantMin_nonneg : 0 ≤ p.wantMin
  drawNum_nonneg : 0 ≤ p.drawNum
  drawNum_le : p.drawNum ≤ p.drawDen
  drawDen_pos : 0 < p.drawDen
  highNum_nonneg : 0 ≤ p.highNum
  highDen_pos : 0 < p.highDen

namespace Config

/-- The default setting, the value column of 00_scope.md R12. -/
def params : Params where
  kPe := 0x4008CCCCCCCCCCCD#64
  wantMin := 100
  drawNum := 6
  drawDen := 10
  highNum := 8
  highDen := 10

/-- `TWO_FRAME_CEIL` (00_scope.md R12). -/
def twoFrameCeil : Int := 7680

/-- `FIELD_MAX`, the ceiling of the 12-bit per-granule length field (00_scope.md R12). -/
def fieldMax : Int := 4095

end Config

end Sys2Proof
end

