-- ==== Sys2Proof/Machine/Numbers.lean ====
section
/-! DEFINITION. The integer primitives of 00_scope.md R15 and R16: every value is an exact integer, and a width applies only where
a value is read from a field or written to one. -/

namespace Sys2Proof.Machine

/-- `zext_N`: an N-bit field as an unsigned integer (00_scope.md R15). -/
def zext {n : Nat} (v : BitVec n) : Int := v.toNat

/-- `sext_N`: an N-bit field as a two's complement integer (00_scope.md R15). -/
def sext {n : Nat} (v : BitVec n) : Int := v.toInt

/-- `enc_N`: the N-bit pattern of an integer that fits (00_scope.md R15). -/
def enc (n : Nat) (v : Int) : BitVec n := BitVec.ofInt n v

/-- `tdiv`: division rounded toward zero (00_scope.md R16). -/
def tdiv (a b : Int) : Int := Int.tdiv a b

/-- `floor8`: the greatest multiple of 8 not above a number (00_scope.md R16); 8 is `ALIGN` of R12. -/
def floor8 (a : Int) : Int := 8 * (a / 8)

/-- `fmod8`: what `floor8` takes off, always 0 to 7 (00_scope.md R16). -/
def fmod8 (a : Int) : Int := a - floor8 a

/-- `odd` (00_scope.md R16). -/
def odd (a : Int) : Bool := a % 2 = 1

end Sys2Proof.Machine
end

