-- ==== Sys2Proof/Machine/Operands.lean ====
section
/-! DEFINITION. What the operand fields stand for: versions, channel counts, the granule's share, and the slots of the
side-information vector. -/

namespace Sys2Proof.Machine

/-- `RESV_LIMIT` (00_scope.md R12, 40_begin_frame.md R81). -/
def resvLimit : Version → Int
  | .v1 => 4088
  | .v2 => 2040

/-- `GRANULES` (00_scope.md R12, 30_encoding.md R61). -/
def granules : Version → Nat
  | .v1 => 2
  | .v2 => 1

/-- `ch`, the channel count (30_encoding.md R62). -/
def channelCount : Channels → Nat
  | .mono => 1
  | .stereo => 2

/-- `tdiv(M, ch)`, a channel's share of M (41_granule.md R96, R104). -/
def share (ch : Channels) (m : BitVec 16) : Int := tdiv (zext m) (channelCount ch)

/-- `base`, the share clipped to the length field (41_granule.md R96). -/
def baseBits (ch : Channels) (m : BitVec 16) : Int := min (share ch m) Config.fieldMax

/-- Slot `s` of the vector, `s` = 2 · granule + channel (42_end_frame.md R125). -/
def slotOf (t : Slots) (s : Fin 4) : BitVec 12 :=
  match s with
  | 0 => t.s0
  | 1 => t.s1
  | 2 => t.s2
  | 3 => t.s3

/-- The vector with slot `s` replaced. -/
def withSlot (t : Slots) (s : Fin 4) (v : BitVec 12) : Slots :=
  match s with
  | 0 => { t with s0 := v }
  | 1 => { t with s1 := v }
  | 2 => { t with s2 := v }
  | 3 => { t with s3 := v }

/-- The active slots, granule outer and channel inner, which is in increasing slot number (42_end_frame.md R126). -/
def activeSlots (ver : Version) (ch : Channels) : List (Fin 4) :=
  [0, 1, 2, 3].filter fun s => s.val / 2 < granules ver && s.val % 2 < channelCount ch

end Sys2Proof.Machine
end

