-- ==== Sys2Proof/Machine/State.lean ====
section
/-! DEFINITION. The state of the block and what stands on its ports, the ways a step could stop, and the state after reset. -/

namespace Sys2Proof.Machine

/-- PHASE, the place in the per-frame state machine (10_state.md R24); all four encodings are legal. -/
inductive Phase where
  /-- 0 FRAME_START: after reset, waiting for the first BEGIN_FRAME. -/
  | frameStart
  /-- 1 GRANULE_LOOP: after BEGIN_FRAME. -/
  | granuleLoop
  /-- 2 FRAME_DONE: after END_FRAME, waiting for the next BEGIN_FRAME. -/
  | frameDone
  /-- 3 FAULT: a fault was raised; every command is rejected until reset. -/
  | fault
deriving DecidableEq, Repr

/-- FAULT, the fault record (10_state.md R26, 60_exceptions.md R145). These are the block's own faults, which its commands
report as next states; they are not stops of the model. -/
inductive FaultCode where
  /-- 0 NONE. -/
  | none
  /-- 1 DESYNC: BEGIN_FRAME with RO ≠ OCC. -/
  | desync
  /-- 2 SEQ: a command in a phase that does not admit it. -/
  | seq
  /-- 3 OVF: an ADJUST whose result does not fit OCC. -/
  | ovf
deriving DecidableEq, Repr

/-- What the command and response ports hold between edges (10_state.md R31, 30_encoding.md R57, R58): at most one command is
in flight, and no command is accepted while a response is on offer. -/
inductive Port where
  /-- Nothing in flight and nothing on offer. -/
  | idle
  /-- An accepted command in flight; `wait` more edges pass before the edge at which its response becomes valid. -/
  | executing (cw : CommandWord) (wait : Nat)
  /-- `rsp_valid` = 1 with `rsp_data` = `rw`. -/
  | responding (rw : ResponseWord)
deriving DecidableEq, Repr

/-- The input pins as one rising edge of `clk` samples them (30_encoding.md R55). -/
structure Pins where
  /-- `rst`, active high. -/
  rst : Bool
  /-- `cmd_valid`. -/
  cmdValid : Bool
  /-- `cmd_data`. -/
  cmdData : CommandWord
  /-- `rsp_ready`. -/
  rspReady : Bool
deriving DecidableEq, Repr

/-- The whole machine. The first four fields are the architectural state (10_state.md R22), the fifth the hidden state (R31); the
last three are the model's own: what the host will do, and how the block is built. -/
structure State where
  /-- OCC (10_state.md R23). -/
  occ : BitVec 32
  /-- CAP (10_state.md R25). -/
  cap : BitVec 12
  /-- PHASE (10_state.md R24). -/
  phase : Phase
  /-- FAULT (10_state.md R26). -/
  fault : FaultCode
  /-- The command in flight, or the response on offer (10_state.md R31). -/
  port : Port
  /-- The input pins at the coming edges, the next edge first. DESIGN CHOICE (log entry 1): past its end the pins are quiet. -/
  pins : List Pins
  /-- `LAT - 1` for the commands still to be accepted, the next one first (70_reset_and_hazards.md R179). DESIGN CHOICE
  (unsafe, log entry 2): past its end LAT is 1. -/
  delays : List Nat
  /-- The policy setting this block is built with (00_scope.md R12, R13); nothing writes it. -/
  params : Params
deriving DecidableEq, Repr

/-- The ways a step stops with a fault: NONE. Every 128-bit word in every phase has a defined outcome (30_encoding.md R58, R69,
70_reset_and_hazards.md R175), and a fault of the block is a next state (60_exceptions.md R147); so this closed type has no
constructor. Neither safe nor unsafe: no behaviour is cut off (log entry 8). -/
inductive Fault where
deriving DecidableEq, Repr

/-- The ways a step is refused. -/
inductive Refusal where
  /-- Raised by an arm of `exec` whose instruction has no meaning yet; safe. No arm raises it: all four commands are
  modelled. -/
  | notModelled (mnemonic : String)
deriving DecidableEq, Repr

/-- The block right after reset (70_reset_and_hazards.md R170, R171), with nothing yet decided about the pins and the latency of
later edges (log entries 1 and 2). DESIGN CHOICE (unsafe for other blocks, log entry 4): the block is built with the default setting. -/
def State.reset : State where
  occ := 0#32
  cap := 0#12
  phase := .frameStart
  fault := .none
  port := .idle
  pins := []
  delays := []
  params := Config.params

end Sys2Proof.Machine
end

