-- ==== Sys2Proof/Machine/Flags.lean ====
section
/-! DEFINITION. How the block reports: the codes of PHASE and FAULT, the response word and its fields, and the output pins. The block
has no flags or condition codes (10_state.md R27). -/

namespace Sys2Proof.Machine

/-- The encoding of PHASE (10_state.md R24). -/
def Phase.code : Phase → BitVec 2
  | .frameStart => 0#2
  | .granuleLoop => 1#2
  | .frameDone => 2#2
  | .fault => 3#2

/-- The encoding of FAULT, and of the field ST (10_state.md R26, 60_exceptions.md R145). -/
def FaultCode.code : FaultCode → BitVec 2
  | .none => 0#2
  | .desync => 1#2
  | .seq => 2#2
  | .ovf => 3#2

/-- The response word, its payload RW[127:16] first: then zeros 15:5, OPE 4:3, RAISED 2, ST 1:0 (30_encoding.md R70). -/
def responseWord (st : FaultCode) (raised : Bool) (op : Opcode) (payload : BitVec 112) : ResponseWord :=
  payload ++ 0#11 ++ op.code ++ BitVec.ofBool raised ++ st.code

/-- The payload with ALLOWED in RW[47:16], 32-bit two's complement (30_encoding.md R70). -/
def allowedPayload (allowed : Int) : BitVec 112 := 0#80 ++ enc 32 allowed

/-- The payload with S0' to S3' in RW[63:16] and DRAIN in RW[95:64] (30_encoding.md R70). -/
def slotsPayload (t : Slots) (drain : Int) : BitVec 112 := 0#32 ++ enc 32 drain ++ t.s3 ++ t.s2 ++ t.s1 ++ t.s0

/-- Field ST (30_encoding.md R70). -/
def rwSt (rw : ResponseWord) : BitVec 2 := rw.extractLsb' 0 2

/-- Field RAISED (30_encoding.md R70). -/
def rwRaised (rw : ResponseWord) : Bool := rw.getLsbD 2

/-- Field OPE (30_encoding.md R70). -/
def rwOpe (rw : ResponseWord) : BitVec 2 := rw.extractLsb' 3 2

/-- The always-zero bits RW[15:5] (30_encoding.md R70). -/
def rwZeroLow (rw : ResponseWord) : BitVec 11 := rw.extractLsb' 5 11

/-- The always-zero bits RW[127:96] (30_encoding.md R70). -/
def rwZeroHigh (rw : ResponseWord) : BitVec 32 := rw.extractLsb' 96 32

/-- RW[127:16], where the results stand (30_encoding.md R70). -/
def rwPayload (rw : ResponseWord) : BitVec 112 := rw.extractLsb' 16 112

/-- Field ALLOWED as the integer it stands for (30_encoding.md R70). -/
def rwAllowed (rw : ResponseWord) : Int := sext (rw.extractLsb' 16 32)

/-- Fields S0' to S3' (30_encoding.md R70). -/
def rwSlots (rw : ResponseWord) : Slots :=
  ⟨rw.extractLsb' 16 12, rw.extractLsb' 28 12, rw.extractLsb' 40 12, rw.extractLsb' 52 12⟩

/-- Field DRAIN as the integer it stands for (30_encoding.md R70). -/
def rwDrain (rw : ResponseWord) : Int := zext (rw.extractLsb' 64 32)

/-- The output pins (30_encoding.md R55). -/
structure Outputs where
  cmdReady : Bool
  rspValid : Bool
  /-- `none` while `rsp_valid` = 0: the spec gives the wires no value then (safe, log entry 6). -/
  rspData : Option ResponseWord
  stOcc : BitVec 32
  stCap : BitVec 12
  stPhase : BitVec 2
  stFault : BitVec 2
  faultO : Bool
deriving DecidableEq, Repr

/-- `cmd_ready`: 1 exactly when `rst` = 0 and no accepted command is waiting for its response to be taken (30_encoding.md R57,
70_reset_and_hazards.md R170). -/
def cmdReady (rst : Bool) (s : State) : Bool := !rst && s.port == .idle

/-- The response on offer, if any (30_encoding.md R58). -/
def offered (s : State) : Option ResponseWord :=
  match s.port with
  | .idle => Option.none
  | .executing _ _ => Option.none
  | .responding rw => some rw

/-- The output pins while `rst` has the given value (30_encoding.md R55, R57, R58, R72). -/
def outputs (rst : Bool) (s : State) : Outputs where
  cmdReady := cmdReady rst s
  rspValid := (offered s).isSome
  rspData := offered s
  stOcc := s.occ
  stCap := s.cap
  stPhase := s.phase.code
  stFault := s.fault.code
  faultO := s.fault != .none

end Sys2Proof.Machine
end

