-- ==== Sys2Proof/Machine/Ops.lean ====
section
/-! DEFINITION. The named operations over the state that every command shares: reading the registers as integers, answering,
rejecting, raising a fault, and the prologue. -/

namespace Sys2Proof.Machine

/-- OCC as the integer it stands for (10_state.md R23). -/
def State.occInt (s : State) : Int := sext s.occ

/-- CAP as the integer it stands for (10_state.md R25). -/
def State.capInt (s : State) : Int := zext s.cap

/-- `S.OCC <- v` (00_scope.md R18). -/
def State.setOcc (v : Int) (s : State) : State := { s with occ := enc 32 v }

/-- `S.CAP <- v` (00_scope.md R18). -/
def State.setCap (v : Int) (s : State) : State := { s with cap := enc 12 v }

/-- `S.PHASE <- p` (00_scope.md R18). -/
def State.setPhase (p : Phase) (s : State) : State := { s with phase := p }

/-- The response word goes on offer (00_scope.md R18, 30_encoding.md R58). -/
def State.offer (rw : ResponseWord) (s : State) : State := { s with port := .responding rw }

/-- `respond(...)` of a command that executed: ST = 0, RAISED = 0 (30_encoding.md R70). -/
def respond (op : Opcode) (payload : BitVec 112) (s : State) : State :=
  s.offer (responseWord .none false op payload)

/-- TAKING A FAULT, `raise Fault(code)`: FAULT and PHASE are written, the response names the code, and nothing else changes
(60_exceptions.md R147). There is no return from it but reset (R154), which is `resetEdge` of Ports.lean. -/
def raiseFault (code : FaultCode) (op : Opcode) (s : State) : State :=
  State.offer (responseWord code true op 0#112) { s with fault := code, phase := .fault }

/-- A command in PHASE = FAULT: answered with the code, no state change (60_exceptions.md R146). -/
def reject (op : Opcode) (s : State) : State :=
  s.offer (responseWord s.fault false op 0#112)

/-- Which phases admit which commands (60_exceptions.md R148). -/
def legal : Phase → Opcode → Bool
  | .frameStart, .beginFrame => true
  | .frameDone, .beginFrame => true
  | .granuleLoop, .maxBits => true
  | .granuleLoop, .adjust => true
  | .granuleLoop, .endFrame => true
  | _, _ => false

/-- The prologue of every command, then the command's own rule (60_exceptions.md R146, R152). -/
def guarded (op : Opcode) (body : State → State) (s : State) : State :=
  if s.phase = .fault then reject op s
  else if legal s.phase op then body s
  else raiseFault .seq op s

end Sys2Proof.Machine
end

