-- ==== Sys2Proof/Machine/BeginFrame.lean ====
section
/-! DEFINITION. BEGIN_FRAME: the capacity update and the consistency check (40_begin_frame.md). -/

namespace Sys2Proof.Machine

/-- The new capacity (40_begin_frame.md R82). -/
def capacity (ver : Version) (fl : BitVec 16) : Int :=
  let c := if zext fl > Config.twoFrameCeil then 0 else Config.twoFrameCeil - zext fl
  min c (resvLimit ver)

/-- BEGIN_FRAME past its prologue (40_begin_frame.md R80, R83, R84). -/
def beginFrameBody (ver : Version) (fl ro : BitVec 16) (s : State) : State :=
  if zext ro ≠ s.occInt then raiseFault .desync .beginFrame s
  else respond .beginFrame 0#112 ((s.setCap (capacity ver fl)).setPhase .granuleLoop)

/-- BEGIN_FRAME (40_begin_frame.md R80). M is accepted and unused (30_encoding.md R68). -/
def execBeginFrame (ver : Version) (_m fl ro : BitVec 16) (s : State) : Host.Outcome State Fault Refusal :=
  .next (guarded .beginFrame (beginFrameBody ver fl ro) s)

end Sys2Proof.Machine
end

