-- ==== Sys2Proof/Machine/EndFrame.lean ====
section
/-! DEFINITION. END_FRAME: parity fix, clamp, byte alignment, stuffing (42_end_frame.md). -/

namespace Sys2Proof.Machine

/-- Step 1, the parity fix: what is added to the occupancy (42_end_frame.md R121). -/
def parityBit (ch : Channels) (m : BitVec 16) : Int := if ch = .stereo && odd (zext m) then 1 else 0

/-- Steps 2 and 3, clamp and alignment: the new occupancy and the stuffing budget (42_end_frame.md R122, R123). -/
def clampAlign (o cap : Int) : Int × Int :=
  let overBits := max 0 (o - cap)
  let o := o - overBits
  let r := fmod8 o
  if r ≠ 0 then (o - r, overBits + r) else (o, overBits)

/-- Plan B: the slots in order, each filled up to the field's ceiling, until nothing remains; the remainder is the second
component (42_end_frame.md R128, R129). -/
def planB : List (Fin 4) → Slots → Int → Slots × Int
  | [], t, rem => (t, rem)
  | s :: rest, t, rem =>
    if rem = 0 then (t, rem)
    else
      let add := min (Config.fieldMax - zext (slotOf t s)) rem
      planB rest (withSlot t s (enc 12 (zext (slotOf t s) + add))) (rem - add)

/-- Step 4, the stuffing distribution: the new slots and DRAIN (42_end_frame.md R127 to R129). -/
def distribute (ver : Version) (ch : Channels) (t : Slots) (budget : Int) : Slots × Int :=
  if budget > 0 then
    if zext (slotOf t 0) + budget < Config.fieldMax then (withSlot t 0 (enc 12 (zext (slotOf t 0) + budget)), 0)
    else planB (activeSlots ver ch) t budget
  else (t, 0)

/-- END_FRAME past its prologue (42_end_frame.md R120, R130, R131). -/
def endFrameBody (ver : Version) (ch : Channels) (m : BitVec 16) (t : Slots) (s : State) : State :=
  let trim := clampAlign (s.occInt + parityBit ch m) s.capInt
  let out := distribute ver ch t trim.2
  respond .endFrame (slotsPayload out.1 out.2) ((s.setOcc trim.1).setPhase .frameDone)

/-- END_FRAME (42_end_frame.md R120). -/
def execEndFrame (ver : Version) (ch : Channels) (m : BitVec 16) (slots : Slots) (s : State) :
    Host.Outcome State Fault Refusal :=
  .next (guarded .endFrame (endFrameBody ver ch m slots) s)

end Sys2Proof.Machine
end

