-- ==== Sys2Proof/Machine/Binary64.lean ====
section
/-! DEFINITION. IEEE 754 binary64 as 00_scope.md R17 and 30_encoding.md R65 use it: exact values, one rounding, no flags. Every finite
binary64 value is a whole multiple of the smallest subnormal, so a finite value is held as its sign and that multiple
(DEDUCED from the format, safe, log entry 5). -/

namespace Sys2Proof.Machine

/-- A binary64 value. NaN carries no payload: the spec only asks whether a value is NaN (00_scope.md R17, log entry 5). -/
inductive F64 where
  | nan
  /-- +∞, or −∞ when `neg`. -/
  | inf (neg : Bool)
  /-- `mag` times 2^(−1074), negated when `neg`; `mag` = 0 are the two zeros. -/
  | finite (neg : Bool) (mag : Nat)
deriving DecidableEq, Repr

/-- The number 1 in units of the smallest subnormal. -/
def F64.one : Nat := 2 ^ 1074

/-- The least magnitude, in units of the smallest subnormal, that is too large for a finite binary64: 2^1024. -/
def F64.tooLarge : Nat := 2 ^ 2098

/-- The value of a pattern: bit 63 the sign, 62:52 the exponent, 51:0 the fraction (30_encoding.md R65). -/
def F64.ofBits (b : BitVec 64) : F64 :=
  let neg := b.getLsbD 63
  let e := (b.extractLsb' 52 11).toNat
  let f := (b.extractLsb' 0 52).toNat
  if e = 2047 then (if f = 0 then .inf neg else .nan)
  else if e = 0 then .finite neg f
  else .finite neg ((2 ^ 52 + f) * 2 ^ (e - 1))

/-- `num / den` rounded to the nearest integer, ties to even; `den` is positive. -/
def roundNearestEven (num den : Nat) : Nat :=
  let q := num / den
  let r := num % den
  if 2 * r < den then q
  else if den < 2 * r then q + 1
  else if q % 2 = 0 then q else q + 1

/-- The exponent of the spacing of binary64 values around `num / den`, in units of the smallest subnormal: 53 significant bits
are kept, and the spacing is never finer than one unit (subnormals kept, 00_scope.md R17). -/
def F64.spacing (num den : Nat) : Nat := Nat.log2 (num / den) - 52

/-- The binary64 value nearest to `num / den` units, ties to even; too large a result is an infinity (00_scope.md R17). -/
def F64.round (neg : Bool) (num den : Nat) : F64 :=
  let e := F64.spacing num den
  let mag := roundNearestEven num (den * 2 ^ e) * 2 ^ e
  if F64.tooLarge ≤ mag then .inf neg else .finite neg mag

/-- The exact integer of units a sign and a magnitude stand for. -/
def F64.signed (neg : Bool) (mag : Nat) : Int := if neg then -(mag : Int) else (mag : Int)

/-- `f64(n)` (00_scope.md R17). -/
def F64.ofInt (n : Int) : F64 := F64.round (n < 0) (n.natAbs * F64.one) 1

/-- `fmul` (00_scope.md R17). -/
def F64.mul : F64 → F64 → F64
  | .nan, _ => .nan
  | _, .nan => .nan
  | .inf a, .inf b => .inf (a ^^ b)
  | .inf a, .finite b m => if m = 0 then .nan else .inf (a ^^ b)
  | .finite a m, .inf b => if m = 0 then .nan else .inf (a ^^ b)
  | .finite a m, .finite b k => F64.round (a ^^ b) (m * k) F64.one

/-- `fsub` (00_scope.md R17). An exact zero is +0 except for (−0) − (+0), which is −0. -/
def F64.sub : F64 → F64 → F64
  | .nan, _ => .nan
  | _, .nan => .nan
  | .inf a, .inf b => if a = b then .nan else .inf a
  | .inf a, .finite _ _ => .inf a
  | .finite _ _, .inf b => .inf (!b)
  | .finite a m, .finite b k =>
    let d := F64.signed a m - F64.signed b k
    if d = 0 then .finite (a && !b) 0 else F64.round (d < 0) d.natAbs 1

/-- `trunc` of a finite value: the integer nearest to it in the direction of zero (00_scope.md R17). -/
def F64.truncFinite (neg : Bool) (mag : Nat) : Int := F64.signed neg (mag / F64.one)

/-- The pattern of a value; a NaN, of which no rule writes a pattern, gives the quiet NaN of 95_test_vectors.md M10. -/
def F64.toBits : F64 → BitVec 64
  | .nan => 0x7FF8000000000000#64
  | .inf neg => BitVec.ofBool neg ++ 0x7FF#11 ++ 0#52
  | .finite neg mag =>
    let e := Nat.log2 mag - 52
    BitVec.ofBool neg ++ BitVec.ofNat 63 (e * 2 ^ 52 + mag / 2 ^ e)

end Sys2Proof.Machine
end

