-- ==== Sys2Proof/Machine/Granule.lean ====
section
/-! DEFINITION. The granule commands MAX_BITS and ADJUST (41_granule.md). -/

namespace Sys2Proof.Machine

/-- What `wanted` answers (41_granule.md R98): no perceptual extra, an integer wish above WANT_MIN, or +∞. -/
inductive Wish where
  | noExtra
  | bits (w : Int)
  | unbounded
deriving DecidableEq, Repr

/-- The wish a difference `d` stands for (41_granule.md R98). -/
def wishOf (p : Params) : F64 → Wish
  | .nan => .noExtra
  | .inf true => .noExtra
  | .inf false => .unbounded
  | .finite neg mag => if F64.truncFinite neg mag > p.wantMin then .bits (F64.truncFinite neg mag) else .noExtra

/-- `wanted(PE, base)` (41_granule.md R98). -/
def wanted (p : Params) (pe : BitVec 64) (base : Int) : Wish :=
  wishOf p (F64.sub (F64.mul (F64.ofBits pe) (F64.ofBits p.kPe)) (F64.ofInt base))

/-- `q`, the most that may be drawn of what is banked (41_granule.md R99). -/
def drawLimit (p : Params) (occ : Int) : Int := tdiv (occ * p.drawNum) p.drawDen

/-- `extra` before the overdraft (41_granule.md R99). -/
def perceptualExtra (w : Wish) (q : Int) : Int :=
  match w with
  | .noExtra => 0
  | .bits w => min w q
  | .unbounded => q

/-- `over`, by how much the occupancy passes the high mark (41_granule.md R100). -/
def overdraft (p : Params) (occ cap extra : Int) : Int := occ - tdiv (cap * p.highNum) p.highDen - extra

/-- `extra` after the overdraft (41_granule.md R99, R100). -/
def extraBits (p : Params) (occ cap base : Int) (pe : BitVec 64) : Int :=
  let extra := perceptualExtra (wanted p pe base) (drawLimit p occ)
  let overdrawn := overdraft p occ cap extra
  if overdrawn > 0 then extra + overdrawn else extra

/-- `allowed` (41_granule.md R95, R97, R101). -/
def allowedBits (p : Params) (occ cap : Int) (ch : Channels) (m : BitVec 16) (pe : BitVec 64) : Int :=
  let base := baseBits ch m
  if cap = 0 then base else min (base + extraBits p occ cap base pe) Config.fieldMax

/-- MAX_BITS past its prologue, under the setting the block is built with: advisory, no state written (41_granule.md R95, R102,
00_scope.md R13). -/
def maxBitsBody (ch : Channels) (m : BitVec 16) (pe : BitVec 64) (s : State) : State :=
  respond .maxBits (allowedPayload (allowedBits s.params s.occInt s.capInt ch m pe)) s

/-- MAX_BITS (41_granule.md R95). -/
def execMaxBits (ch : Channels) (m : BitVec 16) (pe : BitVec 64) (s : State) : Host.Outcome State Fault Refusal :=
  .next (guarded .maxBits (maxBitsBody ch m pe) s)

/-- The exact new occupancy of an ADJUST (41_granule.md R104). -/
def adjusted (occ : Int) (ch : Channels) (m : BitVec 16) (cl : BitVec 12) : Int := occ + share ch m - zext cl

/-- An integer that OCC can hold (10_state.md R23). -/
def fitsOcc (v : Int) : Bool := -2 ^ 31 ≤ v && v ≤ 2 ^ 31 - 1

/-- ADJUST past its prologue (41_granule.md R104, R105). -/
def adjustBody (ch : Channels) (m : BitVec 16) (cl : BitVec 12) (s : State) : State :=
  let v := adjusted s.occInt ch m cl
  if fitsOcc v then respond .adjust 0#112 (s.setOcc v) else raiseFault .ovf .adjust s

/-- ADJUST (41_granule.md R104). -/
def execAdjust (ch : Channels) (m : BitVec 16) (cl : BitVec 12) (s : State) : Host.Outcome State Fault Refusal :=
  .next (guarded .adjust (adjustBody ch m cl) s)

end Sys2Proof.Machine
end

