-- ==== Sys2Proof/Machine/Dispatch.lean ====
section
/-! DEFINITION. One arm per command: `Execute` of 00_scope.md R19. The response word goes on offer in the next state's port. -/

namespace Sys2Proof.Machine

def exec (i : Instr) (s : State) : Host.Outcome State Fault Refusal :=
  match i with
  | .beginFrame ver m fl ro => Sys2Proof.Machine.execBeginFrame ver m fl ro s
  | .maxBits ch m pe => Sys2Proof.Machine.execMaxBits ch m pe s
  | .adjust ch m cl => Sys2Proof.Machine.execAdjust ch m cl s
  | .endFrame ver ch m slots => Sys2Proof.Machine.execEndFrame ver ch m slots s

end Sys2Proof.Machine
end

