-- ==== Sys2Proof/Machine/Ports.lean ====
section
/-! DEFINITION. The clocked ports: what a rising edge of `clk` does apart from executing a command (30_encoding.md R55 to R58,
70_reset_and_hazards.md R170, R173). -/

namespace Sys2Proof.Machine

/-- A host that does nothing: no reset, no command, no response taken. -/
def Pins.quiet : Pins where
  rst := false
  cmdValid := false
  cmdData := 0#128
  rspReady := false

/-- The pins as the coming edge samples them. DESIGN CHOICE (log entry 1): quiet where the list has ended. -/
def State.nextPins (s : State) : Pins := s.pins.headD Pins.quiet

/-- The state with the coming edge's sample used up. -/
def State.dropPins (s : State) : State := { s with pins := s.pins.tail }

/-- The edges beyond the first that the next accepted command takes. DESIGN CHOICE (unsafe, log entry 2): none where the list has
ended, so LAT = 1. -/
def State.nextDelay (s : State) : Nat := s.delays.headD 0

/-- An edge with `rst` = 1: every register to its reset value, the command in flight abandoned without a response, `rsp_valid` 0; the
block stays as it is built
(70_reset_and_hazards.md R170, R173). -/
def resetEdge (s : State) : State := 
  { State.reset with pins := s.pins, delays := s.delays, params := s.params }

/-- An edge that accepts a command word; its response becomes valid `nextDelay + 1` edges later (30_encoding.md R56, R58). -/
def acceptEdge (cw : CommandWord) (s : State) : State :=
  { s with port := .executing cw s.nextDelay, delays := s.delays.tail }

/-- The command whose response becomes valid at the coming edge, if there is one (30_encoding.md R58). -/
def dueCommand (s : State) : Option CommandWord :=
  match s.port with
  | .idle => Option.none
  | .responding _ => Option.none
  | .executing _ (_ + 1) => Option.none
  | .executing cw 0 => if s.nextPins.rst then Option.none else some cw

/-- Every other edge: reset, acceptance, a wait, a response taken or held, or nothing (30_encoding.md R56 to R58,
70_reset_and_hazards.md R170). -/
def otherEdge (p : Pins) (s : State) : State :=
  if p.rst then resetEdge s
  else
    match s.port with
    | .idle => if p.cmdValid then acceptEdge p.cmdData s else s
    | .executing cw wait => { s with port := .executing cw (wait - 1) }
    | .responding _ => if p.rspReady then { s with port := .idle } else s

end Sys2Proof.Machine
end

