-- ==== Sys2Proof/Machine/Step.lean ====
section
/-! DEFINITION. One step: one rising edge of `clk` (30_encoding.md R55). -/

namespace Sys2Proof.Machine

/-- At the edge where a command's response becomes valid the command executes, as one indivisible step (30_encoding.md R58,
20_memory.md R43, R47); every other edge only moves the ports. -/
def step (s : State) : Host.Outcome State Fault Refusal :=
  match dueCommand s with
  | some cw => exec (decode cw) s.dropPins
  | Option.none => .next (otherEdge s.nextPins s.dropPins)

/-- The state with a command word in flight, accepted, and due at the very next edge, at which `rst` is 0. `nbits` and `w` are as for
`decodeTableWord`. The block fetches nothing (10_state.md R21): this stands for a host that has had the word accepted (log
entry 3). -/
def State.withFetchWord (s : State) (nbits w : Nat) : State :=
  { s with
    port := .executing (BitVec.ofNat 128 (w % 2 ^ nbits)) 0
    pins := if s.nextPins.rst then Pins.quiet :: s.pins else s.pins }

end Sys2Proof.Machine
end

