-- ==== Sys2Proof/WellFormed.lean ====
section
/-! DEFINITION. Well-formedness: of a command (nothing to check, 30_encoding.md R69) and of an assembler line, where operands are
still plain numbers and can be out of range (30_encoding.md R74, 93_implementation_defined.md U11). -/

namespace Sys2Proof

/-- Every command is well formed: "There are no illegal, reserved, hint or custom encodings" (30_encoding.md R69); the widths of
the operands are in the type of `Instr`. -/
def Instr.wellFormed : Instr → Bool
  | .beginFrame _ _ _ _ => true
  | .maxBits _ _ _ => true
  | .adjust _ _ _ => true
  | .endFrame _ _ _ _ => true

/-- The two spellings of the `pe` operand (30_encoding.md R74). -/
inductive PeLiteral where
  /-- `pe=bits:<16 hex digits>`, the pattern itself. -/
  | bits (n : Nat)
  /-- A decimal literal: sign, digits as one number, power of ten. -/
  | decimal (neg : Bool) (digits : Nat) (exp10 : Int)
deriving DecidableEq, Repr

/-- One field of an assembler line (30_encoding.md R74). -/
inductive AsmField where
  | version (v : Version)
  | fl (n : Nat)
  | ro (n : Nat)
  | mean (n : Nat)
  | ch (n : Nat)
  | pe (p : PeLiteral)
  | cl (n : Nat)
  | slots (a b c d : Nat)
deriving DecidableEq, Repr

/-- The name of a field, by which a line may hold it once. -/
inductive AsmKey where
  | version | fl | ro | mean | ch | pe | cl | slots
deriving DecidableEq, Repr

/-- An assembler line, its fields in any order, or the directive `.reset` with the number of cycles for which `rst`
is asserted (30_encoding.md R74). How a line is spelled in characters is left out (log entry 11). -/
inductive AsmLine where
  | command (op : Opcode) (fields : List AsmField)
  | reset (cycles : Nat)
deriving DecidableEq, Repr

/-- The name of a field. -/
def AsmField.key : AsmField → AsmKey
  | .version _ => .version
  | .fl _ => .fl
  | .ro _ => .ro
  | .mean _ => .mean
  | .ch _ => .ch
  | .pe _ => .pe
  | .cl _ => .cl
  | .slots _ _ _ _ => .slots

/-- The range the syntax of 30_encoding.md R74 gives a field. -/
def AsmField.inRange : AsmField → Bool
  | .version _ => true
  | .fl n => n ≤ 65535
  | .ro n => n ≤ 65535
  | .mean n => n ≤ 65535
  | .ch n => n = 1 || n = 2
  | .pe (.bits n) => n < 2 ^ 64
  | .pe (.decimal _ _ _) => true
  | .cl n => n ≤ 4095
  | .slots a b c d => a ≤ 4095 && b ≤ 4095 && c ≤ 4095 && d ≤ 4095

/-- The fields each mnemonic takes (30_encoding.md R74). -/
def asmKeys : Opcode → List AsmKey
  | .beginFrame => [.version, .fl, .ro, .mean]
  | .maxBits => [.ch, .mean, .pe]
  | .adjust => [.ch, .mean, .cl]
  | .endFrame => [.version, .ch, .mean, .slots]

/-- A line the assembler accepts: each field belongs to the mnemonic, is in range, and stands once; a reset lasts at least one
cycle (30_encoding.md R74). DEDUCED (safe, log entry 11): R74 does not say what a repeated or foreign field does. -/
def AsmLine.wellFormed : AsmLine → Bool
  | .command op fields =>
    fields.all (fun f => f.inRange && (asmKeys op).contains f.key) && decide (fields.map AsmField.key).Nodup
  | .reset cycles => 1 ≤ cycles

end Sys2Proof
end

