-- ==== Sys2Proof/Machine/Assembler.lean ====
section
/-! DEFINITION. The assembler of 30_encoding.md R74, from a line held as data to what the host drives: a command word, or `rst` for
some cycles. -/

namespace Sys2Proof.Machine

/-- What an assembler line makes the host do. -/
inductive Stimulus where
  | word (cw : CommandWord)
  | reset (cycles : Nat)
deriving DecidableEq, Repr

/-- The value nearest to `digits` times ten to `exp10`, ties to even (30_encoding.md R74). PRESUMED (log entry 17): a literal too
large for a finite value rounds to an infinity, as the operations of 00_scope.md R17 do. -/
def decimalValue (neg : Bool) (digits : Nat) (exp10 : Int) : F64 :=
  F64.round neg (digits * 10 ^ exp10.toNat * F64.one) (10 ^ (-exp10).toNat)

/-- The pattern a `pe` literal denotes (30_encoding.md R74). -/
def peBits : PeLiteral → BitVec 64
  | .bits n => BitVec.ofNat 64 n
  | .decimal neg digits exp10 => (decimalValue neg digits exp10).toBits

/-- The version of a line, VER = 0 where it is omitted (30_encoding.md R74). -/
def asmVersion : List AsmField → Version
  | [] => .v1
  | .version v :: _ => v
  | _ :: rest => asmVersion rest

/-- The channel count of a line, CH = 0 where it is omitted (30_encoding.md R74). -/
def asmChannels : List AsmField → Channels
  | [] => .mono
  | .ch n :: _ => if n = 2 then .stereo else .mono
  | _ :: rest => asmChannels rest

/-- The `pe` pattern of a line, 0 where it is omitted (30_encoding.md R74). -/
def asmPe : List AsmField → BitVec 64
  | [] => 0#64
  | .pe p :: _ => peBits p
  | _ :: rest => asmPe rest

/-- The slots of a line, 0 where they are omitted (30_encoding.md R74). -/
def asmSlots : List AsmField → Slots
  | [] => ⟨0#12, 0#12, 0#12, 0#12⟩
  | .slots a b c d :: _ => ⟨BitVec.ofNat 12 a, BitVec.ofNat 12 b, BitVec.ofNat 12 c, BitVec.ofNat 12 d⟩
  | _ :: rest => asmSlots rest

/-- The number of a numeric field, if this is that field. -/
def AsmField.number (k : AsmKey) : AsmField → Option Nat
  | .fl n => if k = .fl then some n else none
  | .ro n => if k = .ro then some n else none
  | .mean n => if k = .mean then some n else none
  | .cl n => if k = .cl then some n else none
  | .version _ => none
  | .ch _ => none
  | .pe _ => none
  | .slots _ _ _ _ => none

/-- A numeric field of a line, 0 where it is omitted (30_encoding.md R74). -/
def asmNumber (k : AsmKey) (fields : List AsmField) (width : Nat) : BitVec width :=
  BitVec.ofNat width ((fields.findSome? (AsmField.number k)).getD 0)

/-- The command a line's fields give. -/
def asmInstr (op : Opcode) (fields : List AsmField) : Instr :=
  let mean := asmNumber .mean fields 16
  match op with
  | .beginFrame => .beginFrame (asmVersion fields) mean (asmNumber .fl fields 16) (asmNumber .ro fields 16)
  | .maxBits => .maxBits (asmChannels fields) mean (asmPe fields)
  | .adjust => .adjust (asmChannels fields) mean (asmNumber .cl fields 12)
  | .endFrame => .endFrame (asmVersion fields) (asmChannels fields) mean (asmSlots fields)

/-- The assembler: a line it accepts gives a stimulus, any other nothing (30_encoding.md R74, 93_implementation_defined.md U11). -/
def assemble (line : AsmLine) : Option Stimulus :=
  if line.wellFormed then
    match line with
    | .command op fields => some (.word (encode (asmInstr op fields)))
    | .reset cycles => some (.reset cycles)
  else none

end Sys2Proof.Machine
end

