-- ==== Sys2Proof/Safety.lean ====
section
/-! DEFINITION. What counts as a good state and a good run, in the words that the statements use: the state invariant, the commands
as one indivisible step each, sessions on the ports, and the host discipline. -/

namespace Sys2Proof.Machine

/-! ### The state invariant -/

/-- What holds of every state the block can be in after a reset. -/
structure State.Inv (s : State) : Prop where
  /-- "FAULT ≠ 0 exactly when PHASE = FAULT" (10_state.md R26). -/
  fault_iff : s.fault ≠ .none ↔ s.phase = .fault
  /-- "0 ≤ CAP ≤ 4088 always" (10_state.md R33). -/
  cap_le : s.capInt ≤ 4088
  /-- FRAME_START is left by the first command and entered only by reset (70_reset_and_hazards.md R171). -/
  start_zero : s.phase = .frameStart → s.occInt = 0 ∧ s.capInt = 0
  /-- What END_FRAME leaves stays until the next BEGIN_FRAME (10_state.md R34). -/
  done_aligned : s.phase = .frameDone → s.occInt ≤ s.capInt ∧ s.occInt % 8 = 0
  /-- A response on offer names the FAULT the block holds, its zero bits are zero, and it carries results only with ST = 0
  (30_encoding.md R70). -/
  offer_form : ∀ rw, s.port = .responding rw →
    rwSt rw = s.fault.code ∧ rwZeroLow rw = 0#11 ∧ rwZeroHigh rw = 0#32 ∧ (rwSt rw ≠ 0#2 → rwPayload rw = 0#112)
  /-- The block is built with a legal setting (00_scope.md R13). -/
  params_legal : s.params.Legal

/-! ### Commands as single steps -/

/-- The state part of `Execute(S, CW) -> (S', RW)` (00_scope.md R19). -/
def commit (i : Instr) (s : State) : State :=
  match exec i s with
  | .next t => t
  | .fault _ => s
  | .refused _ => s

/-- The response part of `Execute(S, CW) -> (S', RW)` (00_scope.md R19). -/
def answer (i : Instr) (s : State) : Option ResponseWord := offered (commit i s)

/-- The state after a list of command words, each one's response taken. -/
def afterCommands : List CommandWord → State → State
  | [], s => s
  | cw :: rest, s => afterCommands rest { commit (decode cw) s with port := .idle }

/-- The observation of a session: the response words in order (70_reset_and_hazards.md R180), for a host that takes the response of
every command of the list (log entry 18). -/
def responses : List CommandWord → State → List ResponseWord
  | [], _ => []
  | cw :: rest, s => (answer (decode cw) s).toList ++ responses rest { commit (decode cw) s with port := .idle }

/-! ### Sessions on the ports -/

/-- One command as the pins carry it: idle edges, the edge that accepts it, the edges it is in flight, the edge at which its
response becomes valid, the edges the response is held, and the edge that takes it (30_encoding.md R56 to R58). -/
structure Transaction where
  gap : List Pins
  accept : Pins
  wait : List Pins
  due : Pins
  hold : List Pins
  take : Pins
deriving DecidableEq, Repr

/-- The pin samples of a transaction, in order. -/
def Transaction.samples (t : Transaction) : List Pins :=
  t.gap ++ [t.accept] ++ t.wait ++ [t.due] ++ t.hold ++ [t.take]

/-- The pins do what the names of the parts say, and `rst` stays low. -/
structure Transaction.Proper (t : Transaction) : Prop where
  no_reset : ∀ p ∈ t.samples, p.rst = false
  gap_idle : ∀ p ∈ t.gap, p.cmdValid = false
  accept_valid : t.accept.cmdValid = true
  hold_not_ready : ∀ p ∈ t.hold, p.rspReady = false
  take_ready : t.take.rspReady = true

/-- The pin samples of a list of transactions. -/
def sessionPins (ts : List Transaction) : List Pins := ts.flatMap Transaction.samples

/-- The command words of a list of transactions. -/
def sessionWords (ts : List Transaction) : List CommandWord := ts.map fun t => t.accept.cmdData

/-- `LAT - 1` of each command of a list of transactions: the edges it is in flight before its last. -/
def sessionDelays (ts : List Transaction) : List Nat := ts.map fun t => t.wait.length

/-- The response word that the coming edge takes, if it takes one (30_encoding.md R58). DESIGN CHOICE (unsafe, log entry 16): at an
edge with both `rst` = 1 and `rsp_ready` = 1 the response on offer is dropped, not taken; R58 and
70_reset_and_hazards.md R170 do not say which. -/
def takenNow (s : State) : List ResponseWord :=
  if !s.nextPins.rst && s.nextPins.rspReady then (offered s).toList else []

/-- The response words that `n` edges take, in order. DESIGN CHOICE (unsafe, log entry 18): a response that became valid but is not taken
in these edges, because it is still held at their end or because a reset cleared it, is not among them;
70_reset_and_hazards.md R180 says only "response words". -/
def observe : Nat → State → List ResponseWord
  | 0, _ => []
  | n + 1, s =>
    match step s with
    | .next t => takenNow s ++ observe n t
    | .fault _ => []
    | .refused _ => []

/-! ### What a run has done -/

/-- VER and FL of the most recent successful BEGIN_FRAME, kept across the edge from `s` to `t` (10_state.md R33). -/
def begun (s t : State) (g : Option (Version × BitVec 16)) : Option (Version × BitVec 16) :=
  if s.nextPins.rst then none
  else
    match (dueCommand s).map decode with
    | some (.beginFrame ver _ fl _) => if t.phase = .granuleLoop then some (ver, fl) else g
    | _ => g

/-- CAP is the one that what `begun` has kept gives: 0 before a BEGIN_FRAME has succeeded, and after it
`min(RESV_LIMIT(v), max(0, 7680 − FL))` (10_state.md R33). -/
def CapacityIs (g : Option (Version × BitVec 16)) (s : State) : Prop :=
  (s.cap.toNat : Int) =
    match g with
    | none => 0
    | some (.v1, fl) => min 4088 (max 0 (7680 - (fl.toNat : Int)))
    | some (.v2, fl) => min 2040 (max 0 (7680 - (fl.toNat : Int)))

/-- The states that follow a first reset, whatever the registers held before it (70_reset_and_hazards.md R173), each with what
`begun` has kept. -/
inductive Reachable : Option (Version × BitVec 16) → State → Prop where
  | reset (s t : State) : s.nextPins.rst = true → step s = .next t → Reachable none t
  | edge (g : Option (Version × BitVec 16)) (s t : State) : Reachable g s → step s = .next t → Reachable (begun s t g) t

/-! ### The host discipline -/

/-- One granule slot: a MAX_BITS, the coding step, an ADJUST with what it cost (70_reset_and_hazards.md R174). -/
structure GranuleCall where
  ch : Channels
  m : BitVec 16
  pe : BitVec 64
  cl : BitVec 12
deriving DecidableEq, Repr

/-- One frame as the host drives it (70_reset_and_hazards.md R174); its RO is not here: the host reads it from the block. -/
structure FrameCall where
  ver : Version
  m : BitVec 16
  fl : BitVec 16
  granuleCalls : List GranuleCall
  endVer : Version
  endCh : Channels
  endM : BitVec 16
  slots : Slots
deriving DecidableEq, Repr

/-- The state after a list of granule slots. -/
def afterGranules : List GranuleCall → State → State
  | [], s => s
  | g :: rest, s => afterGranules rest (commit (.adjust g.ch g.m g.cl) (commit (.maxBits g.ch g.m g.pe) s))

/-- Every slot's CL stays within the ALLOWED of the MAX_BITS before it (41_granule.md R107). -/
def GranulesWithinBound : List GranuleCall → State → Prop
  | [], _ => True
  | g :: rest, s =>
    (∀ rw, answer (.maxBits g.ch g.m g.pe) s = some rw → zext g.cl ≤ rwAllowed rw) ∧
    GranulesWithinBound rest (commit (.adjust g.ch g.m g.cl) (commit (.maxBits g.ch g.m g.pe) s))

/-- The state after the BEGIN_FRAME of a frame, with RO = OCC as the host must send it (70_reset_and_hazards.md R174, R175). -/
def afterBegin (f : FrameCall) (s : State) : State := commit (.beginFrame f.ver f.m f.fl (enc 16 s.occInt)) s

/-- The state after a whole frame (70_reset_and_hazards.md R174). -/
def afterFrame (f : FrameCall) (s : State) : State :=
  commit (.endFrame f.endVer f.endCh f.endM f.slots) (afterGranules f.granuleCalls (afterBegin f s))

/-- The state after a list of frames. -/
def afterFrames : List FrameCall → State → State
  | [], s => s
  | f :: rest, s => afterFrames rest (afterFrame f s)

/-- The host keeps to every bound it is told in each frame, and no frame has more than 32768 granule slots (41_granule.md R105,
R107). -/
def FramesDisciplined : List FrameCall → State → Prop
  | [], _ => True
  | f :: rest, s =>
    f.granuleCalls.length ≤ 32768 ∧ GranulesWithinBound f.granuleCalls (afterBegin f s) ∧ FramesDisciplined rest (afterFrame f s)

/-- A SAFE state between frames: no fault, and the source's invariant `0 ≤ occupancy ≤ capacity`, a multiple of 8
(10_state.md R34, 90_conflicts.md C1). -/
structure State.BetweenFrames (s : State) : Prop where
  phase_between : s.phase = .frameStart ∨ s.phase = .frameDone
  no_fault : s.fault = .none
  occ_nonneg : 0 ≤ s.occInt
  occ_le_cap : s.occInt ≤ s.capInt
  occ_aligned : s.occInt % 8 = 0

/-! ### Binary64 values -/

/-- A finite pattern and the sign and magnitude, in units of the smallest subnormal 2^(−1074), of the value it stands for: bit 63
the sign, 62:52 the exponent, 51:0 the fraction (30_encoding.md R65). -/
def F64.Denotes (b : BitVec 64) (neg : Bool) (mag : Nat) : Prop :=
  b.extractLsb' 52 11 ≠ 0x7FF#11 ∧ neg = b.getLsbD 63 ∧
  mag = if b.extractLsb' 52 11 = 0#11 then (b.extractLsb' 0 52).toNat
    else (2 ^ 52 + (b.extractLsb' 0 52).toNat) * 2 ^ ((b.extractLsb' 52 11).toNat - 1)

/-- The spacing, in units of the smallest subnormal, of the finite binary64 values of the largest exponent: 2^(1023 - 52). -/
def F64.topSpacing : Nat := 2 ^ 2045

/-- The magnitudes, in units of the smallest subnormal, of the finite binary64 values: at most 53 significant bits, the
largest scale that of exponent field 2046 (30_encoding.md R65). -/
def F64.Representable (mag : Nat) : Prop := ∃ m e : Nat, m < 2 ^ 53 ∧ e ≤ 2045 ∧ mag = m * 2 ^ e

end Sys2Proof.Machine
end

