-- ==== Sys2Proof/Certificates/Slice0/Obligations.lean ====
section
/-! DEFINITION. The statements for the provers, in the order of the spec's files. -/

open Sys2Proof Sys2Proof.Machine

/-! ### Encoding (30_encoding.md) -/

/-- Decoding the encoding of a command gives it back, with every operand at every value (30_encoding.md R59 to R69). -/
def Obligations.DecodeEncodeRoundTrip : Prop := ∀ i : Instr, decode (encode i) = i

/-- Encoding what a word decodes to keeps every bit that is not ignored, and the M of a BEGIN_FRAME, and clears all others
(30_encoding.md R59, R68). -/
def Obligations.EncodeDecodeClearsIgnoredBits : Prop :=
  ∀ cw : CommandWord,
    encode (decode cw) =
      cw &&& (if (decode cw).opcode = .beginFrame then usedBits .beginFrame ||| 0xFFFF00#128 else usedBits (decode cw).opcode)

/-- Two words of one command that agree on every bit not marked "ignored" have the same effect in every state, and the word of an
assembler line holds 0 in every ignored bit, but for M = CW[23:8] of a BEGIN_FRAME line that writes one (30_encoding.md R68). -/
def Obligations.IgnoredBitsHaveNoEffect : Prop :=
  (∀ cw cw' : CommandWord,
    (decode cw).opcode = (decode cw').opcode →
    cw &&& usedBits (decode cw).opcode = cw' &&& usedBits (decode cw).opcode →
    ∀ s, exec (decode cw) s = exec (decode cw') s) ∧
  (∀ op fields cw, assemble (.command op fields) = some (.word cw) →
    cw &&& ~~~(usedBits op |||
      (if op = .beginFrame ∧ AsmKey.mean ∈ fields.map AsmField.key then 0xFFFF00#128 else 0#128)) = 0#128)

/-- OP = CW[1:0] selects the command: 0 BEGIN_FRAME, 1 MAX_BITS, 2 ADJUST, 3 END_FRAME (30_encoding.md R60). -/
def Obligations.OpcodeSelectsCommand : Prop :=
  ∀ cw : CommandWord,
    (cw.extractLsb' 0 2 = 0#2 → ∃ ver m fl ro, decode cw = .beginFrame ver m fl ro) ∧
    (cw.extractLsb' 0 2 = 1#2 → ∃ ch m pe, decode cw = .maxBits ch m pe) ∧
    (cw.extractLsb' 0 2 = 2#2 → ∃ ch m cl, decode cw = .adjust ch m cl) ∧
    (cw.extractLsb' 0 2 = 3#2 → ∃ ver ch m t, decode cw = .endFrame ver ch m t)

/-- The words of four lines of 95_test_vectors.md (SRC1, M1, SRC3, P1 line 10) decode to the commands the lines write. -/
def Obligations.SpecWordsDecode : Prop :=
  decode 0x00000000000000000000001A10000000#128 = .beginFrame .v1 0#16 6672#16 0#16 ∧
  decode 0x407F4000000000000000000000057809#128 = .maxBits .stereo 1400#16 0x407F400000000000#64 ∧
  decode 0x00000000000000000000000226025802#128 = .adjust .mono 600#16 550#12 ∧
  decode 0x000000000000002B731625828A05780B#128 = .endFrame .v1 .stereo 1400#16 ⟨650#12, 600#12, 790#12, 695#12⟩

/-- A line that writes any of the fields of its mnemonic, in range and in any order, is assembled to a word that decodes to the
command whose operands are what the line writes and 0 for what it omits (VER = 0 is V1, CH = 0 is mono); a decimal `pe` literal is
read as the binary64 value its exact value rounds to, past the finite range an infinity by the model's choice, log entry 17
(30_encoding.md R74). -/
def Obligations.AssemblerLinesDecode : Prop :=
  (∀ ver fl ro mean, fl ≤ 65535 → ro ≤ 65535 → mean ≤ 65535 →
    ∀ fields, fields.Subperm [.version ver, .fl fl, .ro ro, .mean mean] →
    ∃ cw, assemble (.command .beginFrame fields) = some (.word cw) ∧
      ∃ v m f r, decode cw = .beginFrame v m f r ∧
        v = (if .version ver ∈ fields then ver else .v1) ∧
        m.toNat = (if .mean mean ∈ fields then mean else 0) ∧
        f.toNat = (if .fl fl ∈ fields then fl else 0) ∧
        r.toNat = (if .ro ro ∈ fields then ro else 0)) ∧
  (∀ (ch : Channels) mean pe, mean ≤ 65535 → pe < 2 ^ 64 →
    ∀ fields, fields.Subperm [.ch (channelCount ch), .mean mean, .pe (.bits pe)] →
    ∃ cw, assemble (.command .maxBits fields) = some (.word cw) ∧
      ∃ c m p, decode cw = .maxBits c m p ∧
        c = (if .ch (channelCount ch) ∈ fields then ch else .mono) ∧
        m.toNat = (if .mean mean ∈ fields then mean else 0) ∧
        p.toNat = (if .pe (.bits pe) ∈ fields then pe else 0)) ∧
  (∀ (ch : Channels) mean neg digits (exp10 : Int), mean ≤ 65535 →
    ∀ fields, fields.Subperm [.ch (channelCount ch), .mean mean, .pe (.decimal neg digits exp10)] →
    .pe (.decimal neg digits exp10) ∈ fields →
    ∃ cw, assemble (.command .maxBits fields) = some (.word cw) ∧
      ∃ c m p, decode cw = .maxBits c m p ∧
        c = (if .ch (channelCount ch) ∈ fields then ch else .mono) ∧
        m.toNat = (if .mean mean ∈ fields then mean else 0) ∧
        F64.ofBits p = F64.round neg (digits * 10 ^ exp10.toNat * F64.one) (10 ^ (-exp10).toNat)) ∧
  (∀ (ch : Channels) mean cl, mean ≤ 65535 → cl ≤ 4095 →
    ∀ fields, fields.Subperm [.ch (channelCount ch), .mean mean, .cl cl] →
    ∃ cw, assemble (.command .adjust fields) = some (.word cw) ∧
      ∃ c m l, decode cw = .adjust c m l ∧
        c = (if .ch (channelCount ch) ∈ fields then ch else .mono) ∧
        m.toNat = (if .mean mean ∈ fields then mean else 0) ∧
        l.toNat = (if .cl cl ∈ fields then cl else 0)) ∧
  (∀ ver (ch : Channels) mean a b d e, mean ≤ 65535 → a ≤ 4095 → b ≤ 4095 → d ≤ 4095 → e ≤ 4095 →
    ∀ fields, fields.Subperm [.version ver, .ch (channelCount ch), .mean mean, .slots a b d e] →
    ∃ cw, assemble (.command .endFrame fields) = some (.word cw) ∧
      ∃ v c m t, decode cw = .endFrame v c m t ∧
        v = (if .version ver ∈ fields then ver else .v1) ∧
        c = (if .ch (channelCount ch) ∈ fields then ch else .mono) ∧
        m.toNat = (if .mean mean ∈ fields then mean else 0) ∧
        (t.s0.toNat, t.s1.toNat, t.s2.toNat, t.s3.toNat) = if .slots a b d e ∈ fields then (a, b, d, e) else (0, 0, 0, 0))

/-- The directive `.reset` is accepted for one or more cycles and is no command word, and `rst` asserted for that many edges, whatever
the other pins do, leaves every state reset; that no cycle at all is refused is the model's choice, log entry 11 (30_encoding.md R74, 70_reset_and_hazards.md R170, R171). -/
def Obligations.ResetDirectiveResets : Prop :=
  assemble (.reset 0) = none ∧
  ∀ n, 1 ≤ n →
    assemble (.reset n) = some (.reset n) ∧
    ∀ (held rest : List Pins) (s : State), held.length = n → (∀ p ∈ held, p.rst = true) → s.pins = held ++ rest →
      core.run n s = .next { State.reset with pins := rest, delays := s.delays, params := s.params }

/-! ### The step and the ports (30_encoding.md, 20_memory.md) -/

/-- At an edge without reset at which the command in flight is due, the step executes exactly the command its word decodes to, with
only that edge's pin sample used up (00_scope.md R19, 30_encoding.md R58). -/
def Obligations.StepExecutesDueCommand : Prop :=
  ∀ s cw, s.port = .executing cw 0 → s.nextPins.rst = false →
    step s = exec (decode cw) { s with pins := s.pins.tail }

/-- A command is accepted at an edge exactly when `rst` = 0, `cmd_valid` = 1 and `cmd_ready` = 1, and the word in flight is then the
`cmd_data` of that edge (30_encoding.md R56). -/
def Obligations.AcceptanceCondition : Prop :=
  ∀ s cw,
    ((∃ t w, step s = .next t ∧ t.port = .executing cw w ∧ ∀ c v, s.port ≠ .executing c v) ↔
      (s.nextPins.rst = false ∧ s.nextPins.cmdValid = true ∧ cmdReady s.nextPins.rst s = true ∧ s.nextPins.cmdData = cw))

/-- `cmd_ready` is 1 exactly when `rst` = 0 and no accepted command waits for its response to be taken: it falls at the edge that
accepts a command and, `rst` staying 0, rises again only at the edge that takes the response (30_encoding.md R57). -/
def Obligations.ReadyFallsAndRises : Prop :=
  ∀ s,
    cmdReady true s = false ∧
    (cmdReady false s = true ↔ (∀ cw w, s.port ≠ .executing cw w) ∧ offered s = none) ∧
    (s.nextPins.rst = false → cmdReady false s = true →
      ∃ t, step s = .next t ∧ (cmdReady false t = false ↔ s.nextPins.cmdValid = true)) ∧
    (s.nextPins.rst = false → cmdReady false s = false →
      ∃ t, step s = .next t ∧ (cmdReady false t = true ↔ (offered s).isSome = true ∧ s.nextPins.rspReady = true))

/-- An accepted command's response becomes valid `LAT` edges after the accepting edge, `LAT - 1` the number of State's list, while
`rst` stays 0; the registers keep their values until that edge (30_encoding.md R58, 20_memory.md R47). -/
def Obligations.ResponseAfterLatency : Prop :=
  ∀ s, s.port = .idle → s.nextPins.cmdValid = true →
    (∀ p ∈ s.pins.take (s.nextDelay + 2), p.rst = false) →
    (∀ k, k ≤ s.nextDelay → ∃ t, core.run (k + 1) s = .next t ∧
      t = { s with port := t.port, pins := t.pins, delays := s.delays.tail } ∧ offered t = none) ∧
    ∃ t rw, core.run (s.nextDelay + 2) s = .next t ∧ offered t = some rw ∧
      t = commit (decode s.nextPins.cmdData)
        { s with port := .executing s.nextPins.cmdData 0, pins := s.pins.drop (s.nextDelay + 2), delays := s.delays.tail }

/-- A response on offer stays, unchanged, until an edge with `rsp_ready` = 1 takes it, `rst` staying 0 (30_encoding.md R58). -/
def Obligations.ResponseHeldUntilTaken : Prop :=
  ∀ s rw, offered s = some rw → s.nextPins.rst = false →
    ∃ t, step s = .next t ∧
      (s.nextPins.rspReady = false → t = { s with pins := s.pins.tail }) ∧
      (s.nextPins.rspReady = true → t = { s with port := .idle, pins := s.pins.tail })

/-- At an edge without reset either the status port keeps its values and no response becomes valid, or the response of the command in
flight becomes valid and the status port shows the state after that command (20_memory.md R47). -/
def Obligations.StatusChangesAtResponseOrReset : Prop :=
  ∀ s t, step s = .next t → s.nextPins.rst = false →
    (t.occ = s.occ ∧ t.cap = s.cap ∧ t.phase = s.phase ∧ t.fault = s.fault ∧ (offered t = offered s ∨ offered t = none)) ∨
    (∃ cw, s.port = .executing cw 0 ∧ offered s = none ∧ (offered t).isSome = true ∧
      exec (decode cw) { s with pins := s.pins.tail } = .next t)

/-- The output pins in every state: the four registers and their codes on the status port, `fault_o` exactly while FAULT is not NONE,
the response on offer on the response port, and `cmd_ready` as R57 says (30_encoding.md R55, R57, R72, 10_state.md R24, R26, R27). -/
def Obligations.OutputsShowRegisters : Prop :=
  ∀ rst s,
    (outputs rst s).stOcc.toInt = s.occ.toInt ∧ (outputs rst s).stCap.toNat = s.cap.toNat ∧
    (outputs rst s).stPhase =
      (match s.phase with | .frameStart => 0#2 | .granuleLoop => 1#2 | .frameDone => 2#2 | .fault => 3#2) ∧
    (outputs rst s).stFault = (match s.fault with | .none => 0#2 | .desync => 1#2 | .seq => 2#2 | .ovf => 3#2) ∧
    ((outputs rst s).faultO = true ↔ s.fault ≠ .none) ∧
    ((outputs rst s).rspValid = true ↔ ∃ rw, s.port = .responding rw) ∧
    (∀ rw, (outputs rst s).rspData = some rw ↔ s.port = .responding rw) ∧
    ((outputs rst s).cmdReady = true ↔ rst = false ∧ s.port = .idle)

/-- An idle block that is offered nothing holds everything it has (60_exceptions.md R163). -/
def Obligations.IdleBlockHoldsItsState : Prop :=
  ∀ s, s.port = .idle → s.nextPins.rst = false → s.nextPins.cmdValid = false →
    step s = .next { s with pins := s.pins.tail } ∧ cmdReady false s = true

/-- On the ports, a session of properly driven commands, whatever the gaps, latencies and holds, leaves the state and gives the
response words of executing its commands one after another (20_memory.md R46, 70_reset_and_hazards.md R179, R180). -/
def Obligations.SessionRefinesExecute : Prop :=
  ∀ (ts : List Transaction) (s : State) (pins : List Pins) (delays : List Nat),
    (∀ t ∈ ts, t.Proper) → s.port = .idle →
    s.pins = sessionPins ts ++ pins → s.delays = sessionDelays ts ++ delays →
    core.run (sessionPins ts).length s = .next { afterCommands (sessionWords ts) s with pins := pins, delays := delays } ∧
    observe (sessionPins ts).length s = responses (sessionWords ts) s

/-! ### Reset (70_reset_and_hazards.md) -/

/-- At every edge with `rst` = 1, whatever the state, every register takes its reset value, a command in flight or a response on offer is
dropped; `cmd_ready` is 0 while `rst` = 1 and 1 in the first cycle after it (70_reset_and_hazards.md R170). -/
def Obligations.ResetEdgeFromEveryState : Prop :=
  ∀ s, s.nextPins.rst = true →
    (∃ t, step s = .next t ∧ t.occ.toInt = 0 ∧ t.cap.toNat = 0 ∧ t.phase = .frameStart ∧ t.fault = .none ∧
      t.port = .idle ∧ offered t = none ∧ cmdReady false t = true) ∧
    cmdReady true s = false

/-- The capacity that FRAME_START holds shows in no response word: sessions from two states in FRAME_START that differ in CAP only
give the same responses (70_reset_and_hazards.md R172). -/
def Obligations.StartCapacityUnobservable : Prop :=
  ∀ (s : State) (c : BitVec 12) (cws : List CommandWord), s.phase = .frameStart →
    responses cws s = responses cws { s with cap := c }

/-! ### Faults (60_exceptions.md) -/

/-- The prologue: in PHASE = FAULT every command is answered with ST = FAULT and RAISED = 0 and changes nothing; in a phase that does
not admit it, a command raises SEQ (60_exceptions.md R146). -/
def Obligations.PrologueRejectsOrRaisesSeq : Prop :=
  ∀ i s,
    (s.phase = .fault → ∃ rw, exec i s = .next { s with port := .responding rw } ∧
      rwSt rw = s.fault.code ∧ rwRaised rw = false ∧ rwOpe rw = i.opcode.code ∧ rwZeroLow rw = 0#11 ∧ rwPayload rw = 0#112) ∧
    (s.phase ≠ .fault →
      (i.opcode = .beginFrame ↔ s.phase = .granuleLoop) →
      ∃ rw, exec i s = .next { s with fault := .seq, phase := .fault, port := .responding rw } ∧
        rwSt rw = 2#2 ∧ rwRaised rw = true ∧ rwOpe rw = i.opcode.code ∧ rwZeroLow rw = 0#11 ∧ rwPayload rw = 0#112)

/-- The table of legality and of next phases (60_exceptions.md R148). -/
def Obligations.PhaseTransitionTable : Prop :=
  ∀ i s, ∃ t, exec i s = .next t ∧
    match s.phase, i.opcode with
    | .frameStart, .beginFrame | .frameDone, .beginFrame =>
      (t.phase = .granuleLoop ∧ t.fault = s.fault) ∨ (t.phase = .fault ∧ t.fault = .desync)
    | .granuleLoop, .maxBits => t.phase = .granuleLoop ∧ t.fault = s.fault
    | .granuleLoop, .adjust => (t.phase = .granuleLoop ∧ t.fault = s.fault) ∨ (t.phase = .fault ∧ t.fault = .ovf)
    | .granuleLoop, .endFrame => t.phase = .frameDone ∧ t.fault = s.fault
    | .fault, _ => t.phase = .fault ∧ t.fault = s.fault
    | _, _ => t.phase = .fault ∧ t.fault = .seq

/-- Raising a fault writes FAULT and PHASE, answers with the code and RAISED = 1 and no result, and changes no other register
(60_exceptions.md R147). -/
def Obligations.RaisedFaultsArePrecise : Prop :=
  ∀ i s t rw, exec i s = .next t → t.port = .responding rw → rwRaised rw = true →
    t = { s with fault := t.fault, phase := .fault, port := .responding rw } ∧
    t.fault ≠ .none ∧ rwSt rw = t.fault.code ∧ rwOpe rw = i.opcode.code ∧ rwZeroLow rw = 0#11 ∧ rwPayload rw = 0#112

/-- Only reset leaves PHASE = FAULT, and it clears FAULT (60_exceptions.md R154). -/
def Obligations.OnlyResetLeavesFault : Prop :=
  ∀ s t, s.phase = .fault → step s = .next t → t.phase ≠ .fault →
    s.nextPins.rst = true ∧ t.fault = .none ∧ t.phase = .frameStart

/-- In PHASE = FAULT no edge without reset changes a register, and each response given repeats the code of FAULT with RAISED = 0
(60_exceptions.md R155). -/
def Obligations.FaultKeepsFirstCode : Prop :=
  ∀ s, s.phase = .fault → s.nextPins.rst = false →
    ∃ t, step s = .next t ∧ t.fault = s.fault ∧ t.phase = .fault ∧ t.occ = s.occ ∧ t.cap = s.cap ∧
      ∀ rw, offered s = none → offered t = some rw → rwSt rw = s.fault.code ∧ rwRaised rw = false

/-- Which commands write which registers: OCC by ADJUST and END_FRAME, CAP by BEGIN_FRAME, and MAX_BITS none unless it raises SEQ; no
command touches what the host and the latency list will do (10_state.md R23, R25, R28). -/
def Obligations.CommandsWriteOnlyTheirRegisters : Prop :=
  ∀ i s t, exec i s = .next t →
    t.pins = s.pins ∧ t.delays = s.delays ∧ t.params = s.params ∧
    (t.cap ≠ s.cap → i.opcode = .beginFrame) ∧
    (t.occ ≠ s.occ → i.opcode = .adjust ∨ i.opcode = .endFrame) ∧
    (t.fault ≠ s.fault → t.phase = .fault)

/-- The policy setting is fixed when the block is built: no edge, no command and no reset changes it, and right after reset the model's
block has the default one, by the model's choice, log entry 4 (00_scope.md R12, R13, 70_reset_and_hazards.md R174). -/
def Obligations.SettingIsFixed : Prop :=
  (∀ s t, step s = .next t → t.params = s.params) ∧
  State.reset.params =
    { kPe := 0x4008CCCCCCCCCCCD#64, wantMin := 100, drawNum := 6, drawDen := 10, highNum := 8, highDen := 10 }

/-! ### BEGIN_FRAME (40_begin_frame.md) -/

/-- A BEGIN_FRAME in FRAME_START or FRAME_DONE with RO = OCC executes: CAP becomes 7680 − FL, not below 0 and not above the version's
limit, 0 to 4088 and stored whole; PHASE becomes GRANULE_LOOP; nothing else is written and the response is all zero
(40_begin_frame.md R81, R82, R84). -/
def Obligations.BeginFrameSetsCapacity : Prop :=
  ∀ ver m fl ro s, s.phase = .frameStart ∨ s.phase = .frameDone → (ro.toNat : Int) = s.occ.toInt →
    ∃ t, exec (.beginFrame ver m fl ro) s = .next t ∧
      t = { s with cap := t.cap, phase := .granuleLoop, port := .responding 0#128 } ∧
      (t.cap.toNat : Int) =
        min (if fl.toNat > 7680 then 0 else 7680 - (fl.toNat : Int)) (if ver = .v1 then 4088 else 2040) ∧
      t.cap.toNat ≤ 4088

/-- A BEGIN_FRAME in FRAME_START or FRAME_DONE with RO ≠ OCC raises DESYNC and writes neither CAP nor OCC
(40_begin_frame.md R83). -/
def Obligations.BeginFrameMismatchDesyncs : Prop :=
  ∀ ver m fl ro s, s.phase = .frameStart ∨ s.phase = .frameDone → (ro.toNat : Int) ≠ s.occ.toInt →
    exec (.beginFrame ver m fl ro) s =
      .next { s with fault := .desync, phase := .fault, port := .responding 5#128 }

/-- In FRAME_START or FRAME_DONE a BEGIN_FRAME raises a fault exactly when RO differs from OCC; a second one, whatever its operands,
raises SEQ (40_begin_frame.md R85). -/
def Obligations.BeginFrameIdempotenceBoundary : Prop :=
  ∀ ver m fl ro s, s.phase = .frameStart ∨ s.phase = .frameDone → s.fault = .none →
    ∃ t, exec (.beginFrame ver m fl ro) s = .next t ∧
      (t.fault = .none ↔ (ro.toNat : Int) = s.occ.toInt) ∧ (t.fault ≠ .none → t.fault = .desync) ∧
      (t.fault = .none → ∀ ver' m' fl' ro', ∃ u, exec (.beginFrame ver' m' fl' ro') t = .next u ∧ u.fault = .seq ∧ u.phase = .fault)

/-- While OCC is negative every BEGIN_FRAME between frames raises DESYNC, whatever its RO (70_reset_and_hazards.md R178). -/
def Obligations.NegativeOccupancyDesyncs : Prop :=
  ∀ ver m fl ro s, s.phase = .frameStart ∨ s.phase = .frameDone → s.occ.toInt < 0 →
    ∃ t, exec (.beginFrame ver m fl ro) s = .next t ∧ t.fault = .desync ∧ t.phase = .fault ∧ t.occ = s.occ ∧ t.cap = s.cap

/-! ### MAX_BITS (41_granule.md) -/

/-- A MAX_BITS in GRANULE_LOOP executes, under every legal setting the block may be built with: it answers with ALLOWED, the clipped
share and, if CAP is not 0, the larger of the perceptual extra and the overdraft on top, clipped to 4095, in 32 signed bits; every
other field is zero but OPE, and no register is written (41_granule.md R95, R96, R99 to R102, 00_scope.md R13). -/
def Obligations.MaxBitsAnswersAllowed : Prop :=
  ∀ ch m pe s, s.phase = .granuleLoop → s.params.Legal →
    let base : Int := min ((m.toNat : Int) / (if ch = .stereo then 2 else 1)) 4095
    let occ : Int := s.occ.toInt
    let cap : Int := s.cap.toNat
    let draw : Int := Int.tdiv (occ * s.params.drawNum) s.params.drawDen
    let high : Int := Int.tdiv (cap * s.params.highNum) s.params.highDen
    let extra : Int := match wanted s.params pe base with
      | .noExtra => 0
      | .bits w => min w draw
      | .unbounded => draw
    ∃ rw, exec (.maxBits ch m pe) s = .next { s with port := .responding rw } ∧
      rwAllowed rw = (if cap = 0 then base else min (base + max extra (occ - high)) 4095) ∧
      rwSt rw = 0#2 ∧ rwRaised rw = false ∧ rwOpe rw = 1#2 ∧ rwZeroLow rw = 0#11 ∧ rw.extractLsb' 48 80 = 0#80

/-- With CAP = 0, MAX_BITS answers min(tdiv(M, ch), 4095), whatever PE and OCC are (41_granule.md R97). -/
def Obligations.NoCapacityNoBorrowing : Prop :=
  ∀ ch m pe s, s.phase = .granuleLoop → s.cap = 0#12 →
    exec (.maxBits ch m pe) s = .next { s with
      port := .responding (BitVec.ofNat 128 (8 + 65536 * min (m.toNat / (if ch = .stereo then 2 else 1)) 4095)) }

/-- After the overdraft step extra is the larger of the perceptual extra and the excess of OCC over the high share of CAP, 80 % of it
rounded down by default (41_granule.md R100). -/
def Obligations.OverdraftTakesTheLarger : Prop :=
  (∀ (p : Params) (occ cap base : Int) (pe : BitVec 64),
    extraBits p occ cap base pe =
      max (perceptualExtra (wanted p pe base) (drawLimit p occ)) (occ - Int.tdiv (cap * p.highNum) p.highDen)) ∧
  ∀ cap : Int, 0 ≤ cap → Int.tdiv (cap * Config.params.highNum) Config.params.highDen = cap * 8 / 10

/-- The bounds of ALLOWED, for every legal setting of the parameters and every value OCC and CAP can take; with the default setting the
least value is reached; the lower bound by base fails for some negative OCC (41_granule.md R103). -/
def Obligations.AllowedBounds : Prop :=
  (∀ (p : Params) (occ cap : Int) (ch : Channels) (m : BitVec 16) (pe : BitVec 64), p.Legal →
    -2 ^ 31 ≤ occ → occ ≤ 2 ^ 31 - 1 → 0 ≤ cap → cap ≤ 4095 →
    let base : Int := min ((m.toNat : Int) / (if ch = .stereo then 2 else 1)) 4095
    let allowed := allowedBits p occ cap ch m pe
    allowed ≤ 4095 ∧
    (cap = 0 → allowed = base) ∧
    (0 ≤ occ → 0 ≤ extraBits p occ cap base pe ∧ extraBits p occ cap base pe ≤ occ ∧
      base ≤ allowed ∧ allowed ≤ min (base + occ) 4095) ∧
    -2 ^ 31 ≤ drawLimit p occ ∧
    -2 ^ 31 ≤ allowed ∧
    base - 1288490188 ≤ allowedBits Config.params occ cap ch m pe) ∧
  (∃ (cap : Int) (ch : Channels) (m : BitVec 16) (pe : BitVec 64), 0 < cap ∧ cap ≤ 4088 ∧
    allowedBits Config.params (-2 ^ 31) cap ch m pe = min ((m.toNat : Int) / (if ch = .stereo then 2 else 1)) 4095 - 1288490188) ∧
  (∃ (cap occ : Int) (ch : Channels) (m : BitVec 16) (pe : BitVec 64), 0 < cap ∧ cap ≤ 4088 ∧ occ < 0 ∧
    allowedBits Config.params occ cap ch m pe < min ((m.toNat : Int) / (if ch = .stereo then 2 else 1)) 4095)

/-- The wish where PE or K_PE is not finite: a NaN, and the product of an infinity and a zero, give no perceptual extra; any other
infinite product gives an unbounded wish if it is positive and no extra if it is negative; a wish, when there is one, is above
WANT_MIN. So under the default setting −∞ gives no extra and +∞ an unbounded wish, and a wish is above 100
(41_granule.md R98, 00_scope.md R17). -/
def Obligations.WishOfSpecialEntropies : Prop :=
  (∀ (p : Params) (pe : BitVec 64) (base : Int), 0 ≤ base → base ≤ 4095 →
    let isNaN (b : BitVec 64) : Prop := b.extractLsb' 52 11 = 0x7FF#11 ∧ b.extractLsb' 0 52 ≠ 0#52
    let isInf (b : BitVec 64) : Prop := b.extractLsb' 52 11 = 0x7FF#11 ∧ b.extractLsb' 0 52 = 0#52
    let isZero (b : BitVec 64) : Prop := b.extractLsb' 0 63 = 0#63
    (isNaN pe ∨ isNaN p.kPe → wanted p pe base = .noExtra) ∧
    (isInf pe ∧ isZero p.kPe ∨ isZero pe ∧ isInf p.kPe → wanted p pe base = .noExtra) ∧
    (isInf pe ∧ ¬ isNaN p.kPe ∧ ¬ isZero p.kPe ∨ isInf p.kPe ∧ ¬ isNaN pe ∧ ¬ isZero pe →
      wanted p pe base = if pe.getLsbD 63 = p.kPe.getLsbD 63 then .unbounded else .noExtra) ∧
    (∀ w, wanted p pe base = .bits w → p.wantMin < w)) ∧
  (∀ base : Int, 0 ≤ base → base ≤ 4095 →
    wanted Config.params 0xFFF0000000000000#64 base = .noExtra ∧
    wanted Config.params 0x7FF0000000000000#64 base = .unbounded ∧
    ∀ pe w, wanted Config.params pe base = .bits w → 100 < w)

/-- The wish of a finite entropy under finite K_PE: the product PE · K_PE is rounded once, the difference from base once, and the wish is
the integer part of the result, kept when above WANT_MIN; a product that rounds to an infinity gives an unbounded wish if it is
positive and none if it is negative. The default K_PE is 0x18CCCCCCCCCCCD · 2^(−51) and WANT_MIN is 100
(41_granule.md R98, 00_scope.md R12, R17, 30_encoding.md R65). -/
def Obligations.WishOfFiniteEntropies : Prop :=
  (F64.Denotes Config.params.kPe false (0x18CCCCCCCCCCCD * 2 ^ 1023) ∧ Config.params.wantMin = 100) ∧
  ∀ (p : Params) (pe : BitVec 64) (base : Int) (neg kNeg : Bool) (mag kMag : Nat), 0 ≤ base → base ≤ 4095 →
    F64.Denotes pe neg mag → F64.Denotes p.kPe kNeg kMag →
    let sign := neg ^^ kNeg
    (F64.round sign (mag * kMag) F64.one = .inf sign →
      wanted p pe base = if sign then .noExtra else .unbounded) ∧
    (∀ product, F64.round sign (mag * kMag) F64.one = .finite sign product →
      let d : Int := (if sign then -(product : Int) else product) - base * F64.one
      ∃ r, F64.round (d < 0) d.natAbs 1 = .finite (d < 0) r ∧
        let w : Int := if d < 0 then -((r / F64.one : Nat) : Int) else (r / F64.one : Nat)
        wanted p pe base = if p.wantMin < w then .bits w else .noExtra)

/-- Under every legal setting whose K_PE is not negative and no NaN, such as the default one, of two entropies from +0 to +∞ the one
whose pattern is larger never gives a smaller ALLOWED where OCC is not negative (41_granule.md R98 to R101, 00_scope.md R13, R17). -/
def Obligations.AllowedGrowsWithEntropy : Prop :=
  ∀ (p : Params) (occ cap : Int) (ch : Channels) (m : BitVec 16) (pe pe' : BitVec 64), p.Legal → 0 ≤ occ → 0 ≤ cap →
    p.kPe.toNat ≤ 0x7FF0000000000000 → pe.toNat ≤ pe'.toNat → pe'.toNat ≤ 0x7FF0000000000000 →
    allowedBits p occ cap ch m pe ≤ allowedBits p occ cap ch m pe'

/-- The rounding of `fmul` and `fsub`: to the nearest finite binary64 value, a tie to the one whose last significant bit is 0, and to
infinity exactly from half a spacing above the largest finite value on (00_scope.md R17). -/
def Obligations.RoundingIsNearestEven : Prop :=
  ∀ (neg : Bool) (num den : Nat), 0 < den →
    (F64.round neg num den = .inf neg ↔ (2 * F64.tooLarge - F64.topSpacing) * den ≤ 2 * num) ∧
    ((2 * F64.tooLarge - F64.topSpacing) * den ≤ 2 * num ∨
      ∃ mag, F64.round neg num den = .finite neg mag ∧ F64.Representable mag ∧
        ∀ k, F64.Representable k → k ≠ mag →
          ((num : Int) - mag * den).natAbs < ((num : Int) - k * den).natAbs ∨
          (((num : Int) - mag * den).natAbs = ((num : Int) - k * den).natAbs ∧
            ∃ m e, m % 2 = 0 ∧ m < 2 ^ 53 ∧ (e = 0 ∨ 2 ^ 52 ≤ m) ∧ mag = m * 2 ^ e))

/-! ### ADJUST (41_granule.md) -/

/-- An ADJUST in GRANULE_LOOP adds tdiv(M, ch) − CL to OCC and writes nothing else when the exact result fits 32 bits, and raises OVF with
OCC unchanged when it does not (41_granule.md R104). -/
def Obligations.AdjustCommitsOrOverflows : Prop :=
  ∀ ch m cl s, s.phase = .granuleLoop →
    let v : Int := s.occ.toInt + (m.toNat : Int) / (if ch = .stereo then 2 else 1) - (cl.toNat : Int)
    (-2 ^ 31 ≤ v → v ≤ 2 ^ 31 - 1 →
      ∃ t, exec (.adjust ch m cl) s = .next t ∧ t = { s with occ := t.occ, port := .responding 0x10#128 } ∧ t.occ.toInt = v) ∧
    (v < -2 ^ 31 ∨ 2 ^ 31 - 1 < v →
      exec (.adjust ch m cl) s = .next { s with fault := .ovf, phase := .fault, port := .responding 0x17#128 })

/-- No 32768 granule slots overflow an occupancy of 0 to 4088, whatever they cost (41_granule.md R105). -/
def Obligations.NoOverflowWithinSlotBudget : Prop :=
  ∀ (gs : List GranuleCall) (s : State), s.phase = .granuleLoop → s.fault = .none → 0 ≤ s.occInt → s.occInt ≤ 4088 →
    gs.length ≤ 32768 →
    (afterGranules gs s).phase = .granuleLoop ∧ (afterGranules gs s).fault = .none ∧ (afterGranules gs s).cap = s.cap

/-- The host discipline, under every legal setting: from OCC ≥ 0, an ADJUST that keeps within the ALLOWED of the MAX_BITS before it leaves OCC ≥ 0
(41_granule.md R107). -/
def Obligations.DisciplineKeepsOccupancyNonnegative : Prop :=
  ∀ ch m pe cl s, s.phase = .granuleLoop → s.params.Legal → 0 ≤ s.occ.toInt →
    ∃ t rw, exec (.maxBits ch m pe) s = .next t ∧ t.port = .responding rw ∧
      ((cl.toNat : Int) ≤ rwAllowed rw → ∃ u, exec (.adjust ch m cl) t = .next u ∧ 0 ≤ u.occ.toInt)

/-! ### END_FRAME (42_end_frame.md) -/

/-- An END_FRAME in GRANULE_LOOP executes: OCC becomes the multiple of 8 at or below min(OCC + p, CAP), PHASE becomes FRAME_DONE, CAP and
FAULT stay, and the response carries the slots and the drain of distributing what was taken off OCC
(42_end_frame.md R120 to R124, R130, R131). -/
def Obligations.EndFrameClosesFrame : Prop :=
  ∀ ver ch m slots s, s.phase = .granuleLoop →
    ∃ t rw, exec (.endFrame ver ch m slots) s = .next t ∧
      t = { s with occ := t.occ, phase := .frameDone, port := .responding rw } ∧
      (let p : Int := if ch = .stereo ∧ m.toNat % 2 = 1 then 1 else 0
       let o : Int := min (s.occ.toInt + p) (s.cap.toNat : Int)
       t.occ.toInt = o - o % 8 ∧
       rwSlots rw = (distribute ver ch slots (s.occ.toInt + p - t.occ.toInt)).1 ∧
       rwDrain rw = (distribute ver ch slots (s.occ.toInt + p - t.occ.toInt)).2) ∧
      rwSt rw = 0#2 ∧ rwRaised rw = false ∧ rwOpe rw = 3#2 ∧ rwZeroLow rw = 0#11 ∧ rwZeroHigh rw = 0#32

/-- No bit is lost or made by an END_FRAME but the parity bit: the slots grow by exactly the budget less the drain, the budget is what
left OCC, and no slot shrinks (42_end_frame.md R132, R133). -/
def Obligations.EndFrameConservesBits : Prop :=
  ∀ ver ch m slots s, s.phase = .granuleLoop →
    ∃ t rw, exec (.endFrame ver ch m slots) s = .next t ∧ t.port = .responding rw ∧
      (let p : Int := if ch = .stereo ∧ m.toNat % 2 = 1 then 1 else 0
       let sum (x : Slots) : Int := (x.s0.toNat + x.s1.toNat + x.s2.toNat + x.s3.toNat : Nat)
       ∃ budget : Int, 0 ≤ budget ∧ s.occ.toInt + p = t.occ.toInt + budget ∧
         sum (rwSlots rw) - sum slots = budget - rwDrain rw ∧ 0 ≤ rwDrain rw ∧
         ((slots.s0.toNat : Int) + budget < 4095 → rwDrain rw = 0 ∧ (rwSlots rw).s0.toNat = (slots.s0.toNat : Int) + budget)) ∧
      slots.s0.toNat ≤ (rwSlots rw).s0.toNat ∧ slots.s1.toNat ≤ (rwSlots rw).s1.toNat ∧
      slots.s2.toNat ≤ (rwSlots rw).s2.toNat ∧ slots.s3.toNat ≤ (rwSlots rw).s3.toNat

/-- After a successful END_FRAME OCC ≤ CAP and OCC is a multiple of 8; OCC is not negative if it was not with the parity bit added
(10_state.md R34). -/
def Obligations.EndFrameLeavesAlignedOccupancy : Prop :=
  ∀ ver ch m slots s, s.phase = .granuleLoop →
    ∃ t, exec (.endFrame ver ch m slots) s = .next t ∧
      t.occ.toInt ≤ (t.cap.toNat : Int) ∧ t.occ.toInt % 8 = 0 ∧
      (0 ≤ s.occ.toInt + (if ch = .stereo ∧ m.toNat % 2 = 1 then 1 else 0) → 0 ≤ t.occ.toInt)

/-- The active slots of each version and channel count; the others are returned unchanged and never read (42_end_frame.md R126). -/
def Obligations.InactiveSlotsUntouched : Prop :=
  activeSlots .v1 .mono = [0, 2] ∧ activeSlots .v1 .stereo = [0, 1, 2, 3] ∧
  activeSlots .v2 .mono = [0] ∧ activeSlots .v2 .stereo = [0, 1] ∧
  (∀ ver ch t budget, ∀ k ∉ activeSlots ver ch, slotOf (distribute ver ch t budget).1 k = slotOf t k) ∧
  (∀ ver ch t u budget, (∀ k ∈ activeSlots ver ch, slotOf t k = slotOf u k) →
    (distribute ver ch t budget).2 = (distribute ver ch u budget).2 ∧
    ∀ k ∈ activeSlots ver ch, slotOf (distribute ver ch t budget).1 k = slotOf (distribute ver ch u budget).1 k)

/-- The drain is what the room left in the active slots cannot take (42_end_frame.md R127 to R129). -/
def Obligations.DrainIsWhatNoSlotTakes : Prop :=
  ∀ ver ch t (budget : Int), 0 ≤ budget →
    (distribute ver ch t budget).2 =
      max 0 (budget - ((activeSlots ver ch).map fun k => 4095 - ((slotOf t k).toNat : Int)).sum)

/-- Each active slot takes what the active slots before it have left, up to its ceiling of 4095 (42_end_frame.md R127, R128). -/
def Obligations.SlotsFillInOrder : Prop :=
  ∀ ver ch t (budget : Int) (before after : List (Fin 4)) (k : Fin 4), 0 ≤ budget → activeSlots ver ch = before ++ k :: after →
    ((slotOf (distribute ver ch t budget).1 k).toNat : Int) =
      (slotOf t k).toNat + min (4095 - ((slotOf t k).toNat : Int))
        (max 0 (budget - (before.map fun j => 4095 - ((slotOf t j).toNat : Int)).sum))

/-- Plan A and Plan B meet without a gap: up to 4095 Plan B gives slot (0,0) the whole budget and drains nothing, as Plan A would; past it
they differ (42_end_frame.md R134). -/
def Obligations.PlansMeetWithoutGap : Prop :=
  ∀ ver ch t (budget : Int), 0 < budget →
    ((slotOf t 0).toNat + budget ≤ 4095 →
      planB (activeSlots ver ch) t budget = (withSlot t 0 (BitVec.ofInt 12 ((slotOf t 0).toNat + budget)), 0)) ∧
    ((slotOf t 0).toNat + budget = 4095 → distribute ver ch t budget = (withSlot t 0 4095#12, 0)) ∧
    (4095 < (slotOf t 0).toNat + budget →
      slotOf (planB (activeSlots ver ch) t budget).1 0 = 4095#12)

/-! ### Invariants and whole runs -/

/-- The invariant holds right after reset. -/
def Obligations.InvariantHoldsAtReset : Prop := State.reset.Inv

/-- Every step, from every state that meets the invariant, gives a state that meets it. -/
def Obligations.EveryStepKeepsInvariant : Prop := ∀ s t, s.Inv → step s = .next t → t.Inv

/-- The block never stops: every edge from every state has a next state (30_encoding.md R58, R69). -/
def Obligations.EveryEdgeHasNextState : Prop := ∀ s, ∃ t, step s = .next t

/-- CAP is that of the most recent successful BEGIN_FRAME, and 0 before there was one: an edge with `rst` = 1 makes it so from every state,
and every step from a state in which it is so keeps it, with CAP at most 4088 (10_state.md R33, 70_reset_and_hazards.md R170). -/
def Obligations.CapacityFollowsLastBeginFrame : Prop :=
  (∀ s t, s.nextPins.rst = true → step s = .next t → CapacityIs none t) ∧
  ∀ g s t, CapacityIs g s → step s = .next t → CapacityIs (begun s t g) t ∧ t.cap.toNat ≤ 4088

/-- So CAP is that of the most recent successful BEGIN_FRAME in every state that follows a reset
(10_state.md R33, 70_reset_and_hazards.md R170). -/
def Obligations.CapacityInReachableStates : Prop :=
  ∀ g s, Reachable g s → CapacityIs g s ∧ s.cap.toNat ≤ 4088

/-- A host that sends RO = OCC, keeps each CL within ALLOWED and drives at most 32768 granule slots a frame never meets a fault: after any
number of frames, and under every legal setting, the block is again between frames with 0 ≤ OCC ≤ CAP, a multiple of 8
(60_exceptions.md R149, 41_granule.md R107, 42_end_frame.md R135). -/
def Obligations.DisciplinedSessionNeverFaults : Prop :=
  ∀ (fs : List FrameCall) (s : State), s.params.Legal → s.BetweenFrames → FramesDisciplined fs s → (afterFrames fs s).BetweenFrames
end

