-- ==== Sys2Proof/Laws/Bits.lean ====
section
/-! SUPPORT. Fields of words built by concatenation, and the fields of the response word. -/

namespace Sys2Proof.Machine

theorem extract_append_low {n m : Nat} (a : BitVec n) (b : BitVec m) {start len : Nat} (h : start + len ≤ m) :
    (a ++ b).extractLsb' start len = b.extractLsb' start len := by
  apply BitVec.eq_of_getLsbD_eq
  intro i hi
  simp only [BitVec.getLsbD_extractLsb', BitVec.getLsbD_append]
  rw [if_pos (by omega)]

theorem extract_append_high {n m : Nat} (a : BitVec n) (b : BitVec m) {start len : Nat} (h : m ≤ start) :
    (a ++ b).extractLsb' start len = a.extractLsb' (start - m) len := by
  apply BitVec.eq_of_getLsbD_eq
  intro i hi
  simp only [BitVec.getLsbD_extractLsb', BitVec.getLsbD_append]
  rw [if_neg (by omega), show start - m + i = start + i - m by omega]

theorem extract_all {n : Nat} (a : BitVec n) : a.extractLsb' 0 n = a := by simp

/-- The fields of a response word are what it was built from (30_encoding.md R70). -/
theorem responseWord_fields (c : FaultCode) (b : Bool) (op : Opcode) (x : BitVec 112) :
    rwSt (responseWord c b op x) = c.code ∧ rwRaised (responseWord c b op x) = b ∧
    rwOpe (responseWord c b op x) = op.code ∧ rwZeroLow (responseWord c b op x) = 0#11 ∧
    rwPayload (responseWord c b op x) = x := by
  refine ⟨?_, ?_, ?_, ?_, ?_⟩
  · exact (extract_append_low _ c.code (start := 0) (len := 2) (by decide)).trans (extract_all _)
  · show BitVec.getLsbD (w := 112 + 11 + 2 + 1 + 2) (x ++ 0#11 ++ op.code ++ BitVec.ofBool b ++ c.code) 2 = _
    simp only [BitVec.getLsbD_append]
    simp
  · show BitVec.extractLsb' (n := 112 + 11 + 2 + 1 + 2) 3 2 (x ++ 0#11 ++ op.code ++ BitVec.ofBool b ++ c.code) = _
    rw [extract_append_high _ _ (by decide), extract_append_high _ _ (by decide), extract_append_low _ _ (by decide)]
    exact extract_all _
  · show BitVec.extractLsb' (n := 112 + 11 + 2 + 1 + 2) 5 11 (x ++ 0#11 ++ op.code ++ BitVec.ofBool b ++ c.code) = _
    rw [extract_append_high _ _ (by decide), extract_append_high _ _ (by decide), extract_append_high _ _ (by decide),
      extract_append_low _ _ (by decide)]
    exact extract_all _
  · show BitVec.extractLsb' (n := 112 + 11 + 2 + 1 + 2) 16 112 (x ++ 0#11 ++ op.code ++ BitVec.ofBool b ++ c.code) = _
    rw [extract_append_high _ _ (by decide), extract_append_high _ _ (by decide), extract_append_high _ _ (by decide),
      extract_append_high _ _ (by decide)]
    exact extract_all _

/-- A field of a response word at or above bit 16 is a field of its payload. -/
theorem responseWord_extract (c : FaultCode) (b : Bool) (op : Opcode) (x : BitVec 112) {start len : Nat} (h : 16 ≤ start) :
    (responseWord c b op x).extractLsb' start len = x.extractLsb' (start - 16) len := by
  show BitVec.extractLsb' (n := 112 + 11 + 2 + 1 + 2) start len (x ++ 0#11 ++ op.code ++ BitVec.ofBool b ++ c.code) = _
  rw [extract_append_high _ _ (by omega), extract_append_high _ _ (by omega), extract_append_high _ _ (by omega),
    extract_append_high _ _ (by omega), show start - 2 - 1 - 2 - 11 = start - 16 by omega]

/-- ALLOWED as it stands in a response word (30_encoding.md R70). -/
theorem rwAllowed_responseWord (c : FaultCode) (b : Bool) (op : Opcode) (v : Int) :
    rwAllowed (responseWord c b op (allowedPayload v)) = sext (enc 32 v) := by
  unfold rwAllowed
  rw [responseWord_extract _ _ _ _ (by decide)]
  exact congrArg sext ((extract_append_low 0#80 (enc 32 v) (start := 0) (len := 32) (by decide)).trans (extract_all _))

/-- S0' to S3' as they stand in a response word (30_encoding.md R70). -/
theorem rwSlots_responseWord (c : FaultCode) (b : Bool) (op : Opcode) (t : Slots) (d : Int) :
    rwSlots (responseWord c b op (slotsPayload t d)) = t := by
  unfold rwSlots
  rw [responseWord_extract _ _ _ _ (by decide), responseWord_extract _ _ _ _ (by decide),
    responseWord_extract _ _ _ _ (by decide), responseWord_extract _ _ _ _ (by decide)]
  show Slots.mk
    (BitVec.extractLsb' (n := 32 + 32 + 12 + 12 + 12 + 12) 0 12 (0#32 ++ enc 32 d ++ t.s3 ++ t.s2 ++ t.s1 ++ t.s0))
    (BitVec.extractLsb' (n := 32 + 32 + 12 + 12 + 12 + 12) 12 12 (0#32 ++ enc 32 d ++ t.s3 ++ t.s2 ++ t.s1 ++ t.s0))
    (BitVec.extractLsb' (n := 32 + 32 + 12 + 12 + 12 + 12) 24 12 (0#32 ++ enc 32 d ++ t.s3 ++ t.s2 ++ t.s1 ++ t.s0))
    (BitVec.extractLsb' (n := 32 + 32 + 12 + 12 + 12 + 12) 36 12 (0#32 ++ enc 32 d ++ t.s3 ++ t.s2 ++ t.s1 ++ t.s0)) = t
  rw [extract_append_low _ _ (by decide),
    extract_append_high _ t.s0 (start := 12) (by decide), extract_append_low _ t.s1 (by decide),
    extract_append_high _ t.s0 (start := 24) (by decide), extract_append_high _ t.s1 (by decide),
    extract_append_low _ t.s2 (by decide),
    extract_append_high _ t.s0 (start := 36) (by decide), extract_append_high _ t.s1 (by decide),
    extract_append_high _ t.s2 (by decide), extract_append_low _ t.s3 (by decide)]
  simp

/-- DRAIN as it stands in a response word (30_encoding.md R70). -/
theorem rwDrain_responseWord (c : FaultCode) (b : Bool) (op : Opcode) (t : Slots) (d : Int) :
    rwDrain (responseWord c b op (slotsPayload t d)) = zext (enc 32 d) := by
  unfold rwDrain
  rw [responseWord_extract _ _ _ _ (by decide)]
  show zext (BitVec.extractLsb' (n := 32 + 32 + 12 + 12 + 12 + 12) 48 32 (0#32 ++ enc 32 d ++ t.s3 ++ t.s2 ++ t.s1 ++ t.s0)) = _
  rw [extract_append_high _ _ (by decide), extract_append_high _ _ (by decide), extract_append_high _ _ (by decide),
    extract_append_high _ _ (by decide), extract_append_low _ _ (by decide)]
  exact congrArg zext (extract_all _)

/-- The always-zero high bits are zero in each of the three kinds of response (30_encoding.md R70). -/
theorem rwZeroHigh_responseWord (c : FaultCode) (b : Bool) (op : Opcode) :
    rwZeroHigh (responseWord c b op 0#112) = 0#32 ∧
    (∀ v, rwZeroHigh (responseWord c b op (allowedPayload v)) = 0#32) ∧
    (∀ t d, rwZeroHigh (responseWord c b op (slotsPayload t d)) = 0#32) := by
  unfold rwZeroHigh
  refine ⟨?_, fun v => ?_, fun t d => ?_⟩
  · rw [responseWord_extract _ _ _ _ (by decide)]
    rfl
  · rw [responseWord_extract _ _ _ _ (by decide)]
    exact extract_append_high 0#80 (enc 32 v) (start := 80) (len := 32) (by decide)
  · rw [responseWord_extract _ _ _ _ (by decide)]
    show BitVec.extractLsb' (n := 32 + 32 + 12 + 12 + 12 + 12) 80 32 (0#32 ++ enc 32 d ++ t.s3 ++ t.s2 ++ t.s1 ++ t.s0) = _
    rw [extract_append_high _ _ (by decide), extract_append_high _ _ (by decide), extract_append_high _ _ (by decide),
      extract_append_high _ _ (by decide), extract_append_high _ _ (by decide)]
    exact extract_all _

/-- The fields of an encoded word, for any payload, M and mode bits (30_encoding.md R59 to R63). -/
theorem encodeWord_fields (x : BitVec 104) (m : BitVec 16) (c v : BitVec 1) (op : Opcode) :
    CommandWord.field (encodeWord x m c v op) 0 2 = op.code ∧ CommandWord.field (encodeWord x m c v op) 8 16 = m ∧
    (encodeWord x m c v op).getLsbD 2 = v.getLsbD 0 ∧ (encodeWord x m c v op).getLsbD 3 = c.getLsbD 0 ∧
    ∀ start len, 24 ≤ start → CommandWord.field (encodeWord x m c v op) start len = x.extractLsb' (start - 24) len := by
  refine ⟨?_, ?_, ?_, ?_, ?_⟩
  · exact (extract_append_low _ op.code (start := 0) (len := 2) (by decide)).trans (extract_all _)
  · show BitVec.extractLsb' (n := 104 + 16 + 4 + 1 + 1 + 2) 8 16 (x ++ m ++ 0#4 ++ c ++ v ++ op.code) = _
    rw [extract_append_high _ _ (by decide), extract_append_high _ _ (by decide), extract_append_high _ _ (by decide),
      extract_append_high _ _ (by decide), extract_append_low _ _ (by decide)]
    exact extract_all _
  · show BitVec.getLsbD (w := 104 + 16 + 4 + 1 + 1 + 2) (x ++ m ++ 0#4 ++ c ++ v ++ op.code) 2 = _
    simp only [BitVec.getLsbD_append]
    simp
  · show BitVec.getLsbD (w := 104 + 16 + 4 + 1 + 1 + 2) (x ++ m ++ 0#4 ++ c ++ v ++ op.code) 3 = _
    simp only [BitVec.getLsbD_append]
    simp
  · intro start len h
    show BitVec.extractLsb' (n := 104 + 16 + 4 + 1 + 1 + 2) start len (x ++ m ++ 0#4 ++ c ++ v ++ op.code) = _
    rw [extract_append_high _ _ (by omega), extract_append_high _ _ (by omega), extract_append_high _ _ (by omega),
      extract_append_high _ _ (by omega), extract_append_high _ _ (by omega),
      show start - 2 - 1 - 1 - 4 - 16 = start - 24 by omega]

@[simp] theorem opcode_ofCode_code (op : Opcode) : Opcode.ofCode op.code = op := by cases op <;> decide

@[simp] theorem version_ofBit_bit (v : Version) : Version.ofBit (v.bit.getLsbD 0) = v := by cases v <;> rfl

@[simp] theorem channels_ofBit_bit (c : Channels) : Channels.ofBit (c.bit.getLsbD 0) = c := by cases c <;> rfl

theorem phase_code_injective {p q : Phase} (h : p.code = q.code) : p = q := by
  revert h; cases p <;> cases q <;> decide

theorem faultCode_code_injective {c d : FaultCode} (h : c.code = d.code) : c = d := by
  revert h; cases c <;> cases d <;> decide

end Sys2Proof.Machine
end

