-- ==== Sys2Proof/Laws/Numbers.lean ====
section
/-! SUPPORT. Ranges and round trips of the integer primitives and of the operands built from them. -/

namespace Sys2Proof.Machine

theorem zext_nonneg {n : Nat} (v : BitVec n) : 0 ≤ zext v := Int.natCast_nonneg _

theorem zext_lt {n : Nat} (v : BitVec n) : zext v < 2 ^ n := by
  have h := v.isLt
  unfold zext
  exact_mod_cast h

/-- A number that fits an unsigned field is read back from it. -/
theorem zext_enc {n : Nat} {v : Int} (h0 : 0 ≤ v) (h : v < 2 ^ n) : zext (enc n v) = v := by
  unfold zext enc
  rw [BitVec.toNat_ofInt]
  have : v % ((2 ^ n : Nat) : Int) = v := Int.emod_eq_of_lt h0 (by exact_mod_cast h)
  rw [this, Int.toNat_of_nonneg h0]

/-- Writing back what an unsigned field held changes nothing. -/
@[simp] theorem enc_zext {n : Nat} (v : BitVec n) : enc n (zext v) = v := by
  simp [enc, zext]

theorem sext_range (v : BitVec 32) : -2 ^ 31 ≤ sext v ∧ sext v ≤ 2 ^ 31 - 1 := by
  have h1 := BitVec.le_toInt v
  have h2 := BitVec.toInt_lt (x := v)
  unfold sext
  omega

/-- A number that fits a signed 32-bit field is read back from it. -/
theorem sext_enc {v : Int} (h0 : -2 ^ 31 ≤ v) (h : v ≤ 2 ^ 31 - 1) : sext (enc 32 v) = v := by
  unfold sext enc
  rw [BitVec.toInt_ofInt]
  exact Int.bmod_eq_of_le (by omega) (by omega)

theorem floor8_le (a : Int) : floor8 a ≤ a := by unfold floor8; omega

theorem lt_floor8_add (a : Int) : a < floor8 a + 8 := by unfold floor8; omega

theorem floor8_mod (a : Int) : floor8 a % 8 = 0 := by unfold floor8; omega

theorem fmod8_range (a : Int) : 0 ≤ fmod8 a ∧ fmod8 a ≤ 7 := by unfold fmod8 floor8; omega

/-- The share of M is a floor division: its operands are not negative (41_granule.md R96). -/
theorem share_eq (ch : Channels) (m : BitVec 16) : share ch m = zext m / (channelCount ch : Int) := by
  unfold share tdiv
  exact Int.tdiv_eq_ediv_of_nonneg (zext_nonneg m)

theorem share_range (ch : Channels) (m : BitVec 16) : 0 ≤ share ch m ∧ share ch m ≤ 65535 := by
  have h0 := zext_nonneg m
  have h1 := zext_lt m
  rw [share_eq]
  cases ch <;> simp only [channelCount] <;> omega

theorem baseBits_range (ch : Channels) (m : BitVec 16) : 0 ≤ baseBits ch m ∧ baseBits ch m ≤ 4095 := by
  have h := share_range ch m
  unfold baseBits Config.fieldMax
  omega

theorem slotOf_range (t : Slots) (i : Fin 4) : 0 ≤ zext (slotOf t i) ∧ zext (slotOf t i) ≤ 4095 := by
  have h0 := zext_nonneg (slotOf t i)
  have h1 := zext_lt (slotOf t i)
  omega

@[simp] theorem slotOf_withSlot_same (t : Slots) (i : Fin 4) (v : BitVec 12) : slotOf (withSlot t i v) i = v := by
  revert i; intro i; fin_cases i <;> rfl

theorem slotOf_withSlot_ne (t : Slots) {i j : Fin 4} (h : i ≠ j) (v : BitVec 12) :
    slotOf (withSlot t i v) j = slotOf t j := by
  fin_cases i <;> fin_cases j <;> first | exact absurd rfl h | rfl

end Sys2Proof.Machine
end

