-- ==== Sys2Proof/Laws/State.lean ====
section
/-! SUPPORT. One lemma per field per update of the state, so that no later proof unfolds a record update. -/

namespace Sys2Proof.Machine

variable (s : State)

@[simp] theorem setOcc_occ (v : Int) : (s.setOcc v).occ = enc 32 v := rfl
@[simp] theorem setOcc_cap (v : Int) : (s.setOcc v).cap = s.cap := rfl
@[simp] theorem setOcc_phase (v : Int) : (s.setOcc v).phase = s.phase := rfl
@[simp] theorem setOcc_fault (v : Int) : (s.setOcc v).fault = s.fault := rfl
@[simp] theorem setOcc_port (v : Int) : (s.setOcc v).port = s.port := rfl
@[simp] theorem setOcc_pins (v : Int) : (s.setOcc v).pins = s.pins := rfl
@[simp] theorem setOcc_delays (v : Int) : (s.setOcc v).delays = s.delays := rfl
@[simp] theorem setOcc_params (v : Int) : (s.setOcc v).params = s.params := rfl

@[simp] theorem setCap_occ (v : Int) : (s.setCap v).occ = s.occ := rfl
@[simp] theorem setCap_cap (v : Int) : (s.setCap v).cap = enc 12 v := rfl
@[simp] theorem setCap_phase (v : Int) : (s.setCap v).phase = s.phase := rfl
@[simp] theorem setCap_fault (v : Int) : (s.setCap v).fault = s.fault := rfl
@[simp] theorem setCap_port (v : Int) : (s.setCap v).port = s.port := rfl
@[simp] theorem setCap_pins (v : Int) : (s.setCap v).pins = s.pins := rfl
@[simp] theorem setCap_delays (v : Int) : (s.setCap v).delays = s.delays := rfl
@[simp] theorem setCap_params (v : Int) : (s.setCap v).params = s.params := rfl

@[simp] theorem setPhase_occ (p : Phase) : (s.setPhase p).occ = s.occ := rfl
@[simp] theorem setPhase_cap (p : Phase) : (s.setPhase p).cap = s.cap := rfl
@[simp] theorem setPhase_phase (p : Phase) : (s.setPhase p).phase = p := rfl
@[simp] theorem setPhase_fault (p : Phase) : (s.setPhase p).fault = s.fault := rfl
@[simp] theorem setPhase_port (p : Phase) : (s.setPhase p).port = s.port := rfl
@[simp] theorem setPhase_pins (p : Phase) : (s.setPhase p).pins = s.pins := rfl
@[simp] theorem setPhase_delays (p : Phase) : (s.setPhase p).delays = s.delays := rfl
@[simp] theorem setPhase_params (p : Phase) : (s.setPhase p).params = s.params := rfl

@[simp] theorem offer_occ (rw : ResponseWord) : (s.offer rw).occ = s.occ := rfl
@[simp] theorem offer_cap (rw : ResponseWord) : (s.offer rw).cap = s.cap := rfl
@[simp] theorem offer_phase (rw : ResponseWord) : (s.offer rw).phase = s.phase := rfl
@[simp] theorem offer_fault (rw : ResponseWord) : (s.offer rw).fault = s.fault := rfl
@[simp] theorem offer_port (rw : ResponseWord) : (s.offer rw).port = .responding rw := rfl
@[simp] theorem offer_pins (rw : ResponseWord) : (s.offer rw).pins = s.pins := rfl
@[simp] theorem offer_delays (rw : ResponseWord) : (s.offer rw).delays = s.delays := rfl
@[simp] theorem offer_params (rw : ResponseWord) : (s.offer rw).params = s.params := rfl

@[simp] theorem dropPins_occ : s.dropPins.occ = s.occ := rfl
@[simp] theorem dropPins_cap : s.dropPins.cap = s.cap := rfl
@[simp] theorem dropPins_phase : s.dropPins.phase = s.phase := rfl
@[simp] theorem dropPins_fault : s.dropPins.fault = s.fault := rfl
@[simp] theorem dropPins_port : s.dropPins.port = s.port := rfl
@[simp] theorem dropPins_pins : s.dropPins.pins = s.pins.tail := rfl
@[simp] theorem dropPins_delays : s.dropPins.delays = s.delays := rfl
@[simp] theorem dropPins_params : s.dropPins.params = s.params := rfl

@[simp] theorem respond_occ (op : Opcode) (x : BitVec 112) : (respond op x s).occ = s.occ := rfl
@[simp] theorem respond_cap (op : Opcode) (x : BitVec 112) : (respond op x s).cap = s.cap := rfl
@[simp] theorem respond_phase (op : Opcode) (x : BitVec 112) : (respond op x s).phase = s.phase := rfl
@[simp] theorem respond_fault (op : Opcode) (x : BitVec 112) : (respond op x s).fault = s.fault := rfl
@[simp] theorem respond_port (op : Opcode) (x : BitVec 112) : (respond op x s).port = .responding (responseWord .none false op x) := rfl
@[simp] theorem respond_pins (op : Opcode) (x : BitVec 112) : (respond op x s).pins = s.pins := rfl
@[simp] theorem respond_delays (op : Opcode) (x : BitVec 112) : (respond op x s).delays = s.delays := rfl
@[simp] theorem respond_params (op : Opcode) (x : BitVec 112) : (respond op x s).params = s.params := rfl

@[simp] theorem raiseFault_occ (c : FaultCode) (op : Opcode) : (raiseFault c op s).occ = s.occ := rfl
@[simp] theorem raiseFault_cap (c : FaultCode) (op : Opcode) : (raiseFault c op s).cap = s.cap := rfl
@[simp] theorem raiseFault_phase (c : FaultCode) (op : Opcode) : (raiseFault c op s).phase = .fault := rfl
@[simp] theorem raiseFault_fault (c : FaultCode) (op : Opcode) : (raiseFault c op s).fault = c := rfl
@[simp] theorem raiseFault_port (c : FaultCode) (op : Opcode) : (raiseFault c op s).port = .responding (responseWord c true op 0#112) := rfl
@[simp] theorem raiseFault_pins (c : FaultCode) (op : Opcode) : (raiseFault c op s).pins = s.pins := rfl
@[simp] theorem raiseFault_delays (c : FaultCode) (op : Opcode) : (raiseFault c op s).delays = s.delays := rfl
@[simp] theorem raiseFault_params (c : FaultCode) (op : Opcode) : (raiseFault c op s).params = s.params := rfl

@[simp] theorem reject_occ (op : Opcode) : (reject op s).occ = s.occ := rfl
@[simp] theorem reject_cap (op : Opcode) : (reject op s).cap = s.cap := rfl
@[simp] theorem reject_phase (op : Opcode) : (reject op s).phase = s.phase := rfl
@[simp] theorem reject_fault (op : Opcode) : (reject op s).fault = s.fault := rfl
@[simp] theorem reject_port (op : Opcode) : (reject op s).port = .responding (responseWord s.fault false op 0#112) := rfl
@[simp] theorem reject_pins (op : Opcode) : (reject op s).pins = s.pins := rfl
@[simp] theorem reject_delays (op : Opcode) : (reject op s).delays = s.delays := rfl
@[simp] theorem reject_params (op : Opcode) : (reject op s).params = s.params := rfl

@[simp] theorem resetEdge_occ : (resetEdge s).occ = 0#32 := rfl
@[simp] theorem resetEdge_cap : (resetEdge s).cap = 0#12 := rfl
@[simp] theorem resetEdge_phase : (resetEdge s).phase = .frameStart := rfl
@[simp] theorem resetEdge_fault : (resetEdge s).fault = .none := rfl
@[simp] theorem resetEdge_port : (resetEdge s).port = .idle := rfl
@[simp] theorem resetEdge_pins : (resetEdge s).pins = s.pins := rfl
@[simp] theorem resetEdge_delays : (resetEdge s).delays = s.delays := rfl
@[simp] theorem resetEdge_params : (resetEdge s).params = s.params := rfl

@[simp] theorem acceptEdge_occ (cw : CommandWord) : (acceptEdge cw s).occ = s.occ := rfl
@[simp] theorem acceptEdge_cap (cw : CommandWord) : (acceptEdge cw s).cap = s.cap := rfl
@[simp] theorem acceptEdge_phase (cw : CommandWord) : (acceptEdge cw s).phase = s.phase := rfl
@[simp] theorem acceptEdge_fault (cw : CommandWord) : (acceptEdge cw s).fault = s.fault := rfl
@[simp] theorem acceptEdge_port (cw : CommandWord) : (acceptEdge cw s).port = .executing cw s.nextDelay := rfl
@[simp] theorem acceptEdge_pins (cw : CommandWord) : (acceptEdge cw s).pins = s.pins := rfl
@[simp] theorem acceptEdge_delays (cw : CommandWord) : (acceptEdge cw s).delays = s.delays.tail := rfl
@[simp] theorem acceptEdge_params (cw : CommandWord) : (acceptEdge cw s).params = s.params := rfl

/-- OCC and CAP as integers are read from their fields alone. -/
theorem occInt_of_occ {s t : State} (h : s.occ = t.occ) : s.occInt = t.occInt := by simp [State.occInt, h]

theorem capInt_of_cap {s t : State} (h : s.cap = t.cap) : s.capInt = t.capInt := by simp [State.capInt, h]

end Sys2Proof.Machine
end

