-- ==== Sys2Proof/Laws/Ops.lean ====
section
/-! SUPPORT. What each shared operation can do, said once. -/

namespace Sys2Proof.Machine

/-- Everything the prologue can do (60_exceptions.md R146). -/
theorem guarded_cases (op : Opcode) (body : State → State) (s : State) :
    (s.phase = .fault ∧ guarded op body s = reject op s) ∨
    (s.phase ≠ .fault ∧ legal s.phase op = true ∧ guarded op body s = body s) ∨
    (s.phase ≠ .fault ∧ legal s.phase op = false ∧ guarded op body s = raiseFault .seq op s) := by
  unfold guarded
  by_cases hp : s.phase = .fault
  · exact .inl ⟨hp, if_pos hp⟩
  · cases hl : legal s.phase op
    · exact .inr (.inr ⟨hp, rfl, by simp [hp]⟩)
    · exact .inr (.inl ⟨hp, rfl, by simp [hp]⟩)

theorem guarded_of_fault {op : Opcode} {body : State → State} {s : State} (h : s.phase = .fault) :
    guarded op body s = reject op s := by simp [guarded, h]

theorem guarded_of_legal {op : Opcode} {body : State → State} {s : State} (h : legal s.phase op = true) :
    guarded op body s = body s := by
  have hp : s.phase ≠ .fault := by intro hp; simp [hp, legal] at h
  simp [guarded, hp, h]

theorem guarded_of_illegal {op : Opcode} {body : State → State} {s : State} (hp : s.phase ≠ .fault)
    (h : legal s.phase op = false) : guarded op body s = raiseFault .seq op s := by simp [guarded, hp, h]

/-- `exec` answers the next state that `commit` names. -/
theorem exec_eq_next_commit (i : Instr) (s : State) : exec i s = .next (commit i s) := by
  cases i <;> rfl

/-- What a command is, past the dispatch. -/
theorem commit_beginFrame (ver : Version) (m fl ro : BitVec 16) (s : State) :
    commit (.beginFrame ver m fl ro) s = guarded .beginFrame (beginFrameBody ver fl ro) s := rfl

theorem commit_maxBits (ch : Channels) (m : BitVec 16) (pe : BitVec 64) (s : State) :
    commit (.maxBits ch m pe) s = guarded .maxBits (maxBitsBody ch m pe) s := rfl

theorem commit_adjust (ch : Channels) (m : BitVec 16) (cl : BitVec 12) (s : State) :
    commit (.adjust ch m cl) s = guarded .adjust (adjustBody ch m cl) s := rfl

theorem commit_endFrame (ver : Version) (ch : Channels) (m : BitVec 16) (t : Slots) (s : State) :
    commit (.endFrame ver ch m t) s = guarded .endFrame (endFrameBody ver ch m t) s := rfl

/-- Everything a BEGIN_FRAME past its prologue can do. -/
theorem beginFrameBody_cases (ver : Version) (fl ro : BitVec 16) (s : State) :
    (zext ro = s.occInt ∧ beginFrameBody ver fl ro s =
      respond .beginFrame 0#112 ((s.setCap (capacity ver fl)).setPhase .granuleLoop)) ∨
    (zext ro ≠ s.occInt ∧ beginFrameBody ver fl ro s = raiseFault .desync .beginFrame s) := by
  by_cases h : zext ro = s.occInt
  · exact .inl ⟨h, by simp [beginFrameBody, h]⟩
  · exact .inr ⟨h, by simp [beginFrameBody, h]⟩

/-- Everything an ADJUST past its prologue can do. -/
theorem adjustBody_cases (ch : Channels) (m : BitVec 16) (cl : BitVec 12) (s : State) :
    (fitsOcc (adjusted s.occInt ch m cl) = true ∧
      adjustBody ch m cl s = respond .adjust 0#112 (s.setOcc (adjusted s.occInt ch m cl))) ∨
    (fitsOcc (adjusted s.occInt ch m cl) = false ∧ adjustBody ch m cl s = raiseFault .ovf .adjust s) := by
  cases h : fitsOcc (adjusted s.occInt ch m cl)
  · exact .inr ⟨rfl, by simp [adjustBody, h]⟩
  · exact .inl ⟨rfl, by simp [adjustBody, h]⟩

/-- What a command does depends on the four registers and the setting alone; it only passes the pins and the latency list on. -/
theorem commit_congr (i : Instr) {s t : State} (h1 : s.occ = t.occ) (h2 : s.cap = t.cap) (h3 : s.phase = t.phase)
    (h4 : s.fault = t.fault) (h5 : s.params = t.params) : commit i t = { commit i s with pins := t.pins, delays := t.delays } := by
  have ho : s.occInt = t.occInt := occInt_of_occ h1
  have hc : s.capInt = t.capInt := capInt_of_cap h2
  have gen : ∀ op (body : State → State), body t = { body s with pins := t.pins, delays := t.delays } →
      guarded op body t = { guarded op body s with pins := t.pins, delays := t.delays } := by
    intro op body hb
    unfold guarded
    rw [h3]
    split
    · simp [reject, State.offer, h1, h2, h3, h4, h5]
    split
    · exact hb
    · simp [raiseFault, State.offer, h1, h2, h5]
  cases i <;> simp only [commit_beginFrame, commit_maxBits, commit_adjust, commit_endFrame] <;> apply gen
  · unfold beginFrameBody
    rw [ho]
    split <;> simp [raiseFault, respond, State.offer, State.setCap, State.setPhase, h1, h2, h4, h5]
  · simp [maxBitsBody, respond, State.offer, h1, h2, h3, h4, h5, ho, hc]
  · unfold adjustBody
    rw [ho]
    dsimp only
    split <;> simp [raiseFault, respond, State.offer, State.setOcc, h1, h2, h3, h4, h5]
  · simp [endFrameBody, respond, State.offer, State.setOcc, State.setPhase, h2, h4, h5, ho, hc]

/-- Every command answers. -/
theorem commit_port (i : Instr) (s : State) : ∃ rw, (commit i s).port = .responding rw := by
  have gen : ∀ op (body : State → State), (∃ rw, (body s).port = .responding rw) →
      ∃ rw, (guarded op body s).port = .responding rw := by
    intro op body hb
    rcases guarded_cases op body s with ⟨_, h⟩ | ⟨_, _, h⟩ | ⟨_, _, h⟩ <;> rw [h]
    · exact ⟨_, rfl⟩
    · exact hb
    · exact ⟨_, rfl⟩
  cases i <;> simp only [commit_beginFrame, commit_maxBits, commit_adjust, commit_endFrame] <;> apply gen
  · unfold beginFrameBody
    split <;> exact ⟨_, rfl⟩
  · exact ⟨_, rfl⟩
  · unfold adjustBody
    dsimp only
    split <;> exact ⟨_, rfl⟩
  · exact ⟨_, rfl⟩

/-- The clamp and the alignment in closed form (42_end_frame.md R122, R123). -/
theorem clampAlign_eq (o cap : Int) : clampAlign o cap = (floor8 (min o cap), o - floor8 (min o cap)) := by
  have h : o - max 0 (o - cap) = min o cap := by omega
  unfold clampAlign
  simp only [h]
  split
  · ext <;> simp only [fmod8] <;> omega
  · rename_i h0
    simp only [fmod8, ne_eq, not_not] at h0
    ext <;> simp only <;> omega

theorem fitsOcc_iff (v : Int) : fitsOcc v = true ↔ -2 ^ 31 ≤ v ∧ v ≤ 2 ^ 31 - 1 := by
  simp [fitsOcc]

end Sys2Proof.Machine
end

