-- ==== Sys2Proof/Laws/PerInstr.lean ====
section
/-! SUPPORT. The statements made of every command as syntax, one lemma per constructor. -/

namespace Sys2Proof.Laws.OpBits

open Sys2Proof Sys2Proof.Machine

/-- The encoding of a command holds its OP in CW[1:0] and zeros in CW[7:4] (30_encoding.md R59, R60). -/
def Statement (i : Instr) : Prop :=
  CommandWord.field (encode i) 0 2 = i.opcode.code ∧ CommandWord.field (encode i) 4 4 = 0#4

/-- Both fields, for any payload and mode bits. -/
theorem encodeWord_opBits (x : BitVec 104) (m : BitVec 16) (c v : BitVec 1) (op : Opcode) :
    CommandWord.field (encodeWord x m c v op) 0 2 = op.code ∧ CommandWord.field (encodeWord x m c v op) 4 4 = 0#4 := by
  refine ⟨?_, ?_⟩
  · exact (extract_append_low _ op.code (start := 0) (len := 2) (by decide)).trans (extract_all _)
  · show BitVec.extractLsb' (n := 104 + 16 + 4 + 1 + 1 + 2) 4 4 (x ++ m ++ 0#4 ++ c ++ v ++ op.code) = _
    rw [extract_append_high _ _ (by decide), extract_append_high _ _ (by decide), extract_append_high _ _ (by decide),
      extract_append_low _ _ (by decide)]
    exact extract_all _

theorem beginFrame (ver : Version) (m fl ro : BitVec 16) : Statement (.beginFrame ver m fl ro) := encodeWord_opBits _ _ _ _ _

theorem maxBits (ch : Channels) (m : BitVec 16) (pe : BitVec 64) : Statement (.maxBits ch m pe) := encodeWord_opBits _ _ _ _ _

theorem adjust (ch : Channels) (m : BitVec 16) (cl : BitVec 12) : Statement (.adjust ch m cl) := encodeWord_opBits _ _ _ _ _

theorem endFrame (ver : Version) (ch : Channels) (m : BitVec 16) (slots : Slots) : Statement (.endFrame ver ch m slots) :=
  encodeWord_opBits _ _ _ _ _

end Sys2Proof.Laws.OpBits
end

