-- ==== Sys2Proof/Laws/Ports.lean ====
section
/-! SUPPORT. Everything one clock edge can do, said once. -/

namespace Sys2Proof.Machine

theorem dueCommand_eq_some {s : State} {cw : CommandWord} :
    dueCommand s = some cw ↔ s.port = .executing cw 0 ∧ s.nextPins.rst = false := by
  unfold dueCommand
  cases hp : s.port with
  | idle => simp
  | responding rw => simp
  | executing c w =>
    cases w with
    | succ n => simp
    | zero => cases hr : s.nextPins.rst <;> simp

/-- No command executes at an edge with `rst` = 1 (70_reset_and_hazards.md R173). -/
theorem dueCommand_of_rst {s : State} (h : s.nextPins.rst = true) : dueCommand s = none := by
  cases hd : dueCommand s with
  | none => rfl
  | some cw => simp [(dueCommand_eq_some.mp hd).2] at h

/-- Everything a step can do: reset, execute the command that is due, accept one, let one wait, let a response be taken, or
only let time pass. -/
theorem step_cases {s t : State} (h : step s = .next t) :
    (s.nextPins.rst = true ∧ t = resetEdge s.dropPins) ∨
    (∃ cw, s.nextPins.rst = false ∧ s.port = .executing cw 0 ∧ t = commit (decode cw) s.dropPins) ∨
    (s.nextPins.rst = false ∧ s.port = .idle ∧ s.nextPins.cmdValid = true ∧
      t = acceptEdge s.nextPins.cmdData s.dropPins) ∨
    (∃ cw n, s.nextPins.rst = false ∧ s.port = .executing cw (n + 1) ∧
      t = { s.dropPins with port := .executing cw n }) ∨
    (∃ rw, s.nextPins.rst = false ∧ s.port = .responding rw ∧ s.nextPins.rspReady = true ∧
      t = { s.dropPins with port := .idle }) ∨
    (s.nextPins.rst = false ∧ t = s.dropPins ∧
      ((s.port = .idle ∧ s.nextPins.cmdValid = false) ∨
        ∃ rw, s.port = .responding rw ∧ s.nextPins.rspReady = false)) := by
  unfold step at h
  cases hd : dueCommand s with
  | some cw =>
    rw [hd] at h
    obtain ⟨hp, hr⟩ := dueCommand_eq_some.mp hd
    simp only [exec_eq_next_commit, Host.Outcome.next.injEq] at h
    exact .inr (.inl ⟨cw, hr, hp, h.symm⟩)
  | none =>
    rw [hd] at h
    simp only [Host.Outcome.next.injEq] at h
    cases hr : s.nextPins.rst with
    | true =>
      refine .inl ⟨rfl, ?_⟩
      rw [← h]; simp [otherEdge, hr]
    | false =>
      cases hp : s.port with
      | idle =>
        cases hv : s.nextPins.cmdValid with
        | true => exact .inr (.inr (.inl ⟨rfl, rfl, rfl, by rw [← h]; simp [otherEdge, hr, hp, hv]⟩))
        | false =>
          exact .inr (.inr (.inr (.inr (.inr ⟨rfl, by rw [← h]; simp [otherEdge, hr, hp, hv], .inl ⟨rfl, rfl⟩⟩))))
      | executing cw w =>
        cases w with
        | zero => simp [dueCommand, hp, hr] at hd
        | succ n =>
          exact .inr (.inr (.inr (.inl ⟨cw, n, rfl, rfl, by rw [← h]; simp [otherEdge, hr, hp]⟩)))
      | responding rw =>
        cases hy : s.nextPins.rspReady with
        | true => exact .inr (.inr (.inr (.inr (.inl ⟨rw, rfl, rfl, rfl, by rw [← h]; simp [otherEdge, hr, hp, hy]⟩))))
        | false =>
          exact .inr (.inr (.inr (.inr (.inr ⟨rfl, by rw [← h]; simp [otherEdge, hr, hp, hy], .inr ⟨rw, rfl, rfl⟩⟩))))

/-- A run whose first edge is known. -/
theorem run_succ (n : Nat) {s t : State} (h : step s = .next t) : core.run (n + 1) s = core.run n t := by
  simp only [Host.Core.run]
  rw [show core.step s = .next t from h]

/-- Runs compose. -/
theorem run_add (n m : Nat) {s t : State} (h : core.run n s = .next t) : core.run (n + m) s = core.run m t := by
  induction n generalizing s with
  | zero =>
    simp only [Host.Core.run] at h
    cases h
    simp
  | succ n ih =>
    rw [show n + 1 + m = (n + m) + 1 by omega]
    simp only [Host.Core.run] at h ⊢
    split at h
    · rename_i u hu
      exact ih h
    · cases h
    · cases h

end Sys2Proof.Machine
end

