-- ==== Sys2Proof/Laws/Rounding.lean ====
section
/-! SUPPORT. What the binary64 operations do: the two parts of the rounding, exact results, and each operation on finite values, with
the constants kept folded. -/

namespace Sys2Proof.Machine

/-- `roundNearestEven` is within half a unit, and even at a tie. -/
theorem roundNearestEven_spec (num den : Nat) (h : 0 < den) :
    2 * num ≤ (2 * roundNearestEven num den + 1) * den ∧ 2 * roundNearestEven num den * den ≤ 2 * num + den ∧
    (2 * num = (2 * roundNearestEven num den + 1) * den → roundNearestEven num den % 2 = 0) ∧
    (2 * roundNearestEven num den * den = 2 * num + den → roundNearestEven num den % 2 = 0) := by
  have hq := Nat.div_add_mod num den
  have hr := Nat.mod_lt num h
  unfold roundNearestEven
  generalize num / den = q at *
  generalize num % den = r at *
  subst hq
  dsimp only
  split
  · refine ⟨by nlinarith, by nlinarith, fun h1 => ?_, fun h1 => ?_⟩ <;> exfalso <;> nlinarith
  split
  · refine ⟨by nlinarith, by nlinarith, fun h1 => ?_, fun h1 => ?_⟩ <;> exfalso <;> nlinarith
  split
  · rename_i a b c
    exact ⟨by nlinarith, by nlinarith, fun _ => c, fun _ => c⟩
  · rename_i a b c
    exact ⟨by nlinarith, by nlinarith, fun h1 => by omega, fun h1 => by omega⟩

/-- `F64.spacing` leaves fewer than 2^53 steps, and at least 2^52 unless it is the finest. -/
theorem spacing_spec (num den : Nat) (hd : 0 < den) :
    num < 2 ^ 53 * (den * 2 ^ F64.spacing num den) ∧
    (F64.spacing num den = 0 ∨ 2 ^ 52 * (den * 2 ^ F64.spacing num den) ≤ num) := by
  unfold F64.spacing
  set q := num / den with hq
  have hlt : num < (q + 1) * den := by
    have h1 := Nat.div_add_mod num den
    have h2 := Nat.mod_lt num hd
    nlinarith
  have hle : q * den ≤ num := by rw [hq]; exact Nat.div_mul_le_self num den
  by_cases h0 : q = 0
  · rw [h0] at hlt ⊢
    have hz : Nat.log2 0 - 52 = 0 := by decide
    rw [hz]
    exact ⟨by simp only [pow_zero]; omega, .inl rfl⟩
  have h1 : q < 2 ^ (q.log2 + 1) := Nat.lt_log2_self
  have h2 : 2 ^ q.log2 ≤ q := Nat.log2_self_le h0
  by_cases hc : q.log2 ≤ 52
  · have h3 : q.log2 - 52 = 0 := by omega
    rw [h3]
    refine ⟨?_, .inl rfl⟩
    have h4 : q < 2 ^ 53 := lt_of_lt_of_le h1 (Nat.pow_le_pow_right (by decide) (by omega))
    simp only [pow_zero, mul_one]
    nlinarith
  · obtain ⟨e, he⟩ : ∃ e, q.log2 = 52 + e := ⟨q.log2 - 52, by omega⟩
    rw [he] at h1 h2 ⊢
    have h3 : 52 + e - 52 = e := by omega
    rw [h3]
    rw [show 52 + e + 1 = 53 + e by ring, pow_add] at h1
    rw [pow_add] at h2
    refine ⟨?_, .inr ?_⟩
    · have h4 : q + 1 ≤ 2 ^ 53 * 2 ^ e := h1
      calc num < (q + 1) * den := hlt
        _ ≤ (2 ^ 53 * 2 ^ e) * den := Nat.mul_le_mul_right _ h4
        _ = _ := by ring
    · calc 2 ^ 52 * (den * 2 ^ e) = (2 ^ 52 * 2 ^ e) * den := by ring
        _ ≤ q * den := Nat.mul_le_mul_right _ h2
        _ ≤ num := hle

/-- A whole number is not moved. -/
theorem roundNearestEven_mul (k den : Nat) (h : 0 < den) : roundNearestEven (k * den) den = k := by
  simp [roundNearestEven, h]

theorem one_eq : F64.one = 2 ^ 1074 := rfl

theorem topSpacing_eq : F64.topSpacing = 2 ^ 2045 := rfl

theorem tooLarge_eq : F64.tooLarge = 2 ^ 53 * F64.topSpacing := by
  unfold F64.tooLarge F64.topSpacing
  exact pow_add 2 53 2045

/-- A representable value is not moved. -/
theorem round_exact (neg : Bool) (m e : Nat) (hm : m < 2 ^ 53) (he : e ≤ 2045) :
    F64.round neg (m * 2 ^ e) 1 = .finite neg (m * 2 ^ e) := by
  have hlt : m * 2 ^ e < F64.tooLarge := by
    rw [tooLarge_eq]
    have h : 2 ^ e ≤ F64.topSpacing := Nat.pow_le_pow_right (by decide) he
    calc m * 2 ^ e < 2 ^ 53 * 2 ^ e := Nat.mul_lt_mul_of_pos_right hm (Nat.two_pow_pos _)
      _ ≤ _ := Nat.mul_le_mul_left _ h
  have hs : F64.spacing (m * 2 ^ e) 1 ≤ e := by
    unfold F64.spacing
    rw [Nat.div_one]
    by_cases h0 : m = 0
    · subst h0
      simp
    · have h : (m * 2 ^ e).log2 < 53 + e := (Nat.log2_lt (Nat.mul_ne_zero h0 (Nat.two_pow_pos _).ne')).mpr (by
        rw [pow_add]
        exact Nat.mul_lt_mul_of_pos_right hm (Nat.two_pow_pos _))
      omega
  obtain ⟨x, hx⟩ : ∃ x, e = F64.spacing (m * 2 ^ e) 1 + x := ⟨e - F64.spacing (m * 2 ^ e) 1, by omega⟩
  have hr : roundNearestEven (m * 2 ^ e) (1 * 2 ^ F64.spacing (m * 2 ^ e) 1) * 2 ^ F64.spacing (m * 2 ^ e) 1 = m * 2 ^ e := by
    generalize F64.spacing (m * 2 ^ e) 1 = sp at hx ⊢
    subst hx
    rw [pow_add, one_mul, show m * (2 ^ sp * 2 ^ x) = (m * 2 ^ x) * 2 ^ sp by ring,
      roundNearestEven_mul _ _ (Nat.two_pow_pos _)]
  unfold F64.round
  dsimp only
  rw [hr, if_neg (not_le.mpr hlt)]

/-- `f64(base)` is exact (41_granule.md R98). -/
theorem ofInt_base (base : Int) (h0 : 0 ≤ base) (h1 : base ≤ 4095) :
    F64.ofInt base = .finite false (base.toNat * F64.one) := by
  unfold F64.ofInt F64.one
  rw [show decide (base < 0) = false by simp; omega, show base.natAbs = base.toNat by omega]
  exact round_exact _ _ _ (by omega) (by omega)

/-- What a finite pattern is read as. -/
theorem ofBits_of_denotes {b : BitVec 64} {neg : Bool} {mag : Nat} (h : F64.Denotes b neg mag) :
    F64.ofBits b = .finite neg mag := by
  obtain ⟨h1, h2, h3⟩ := h
  have he : ¬ (b.extractLsb' 52 11).toNat = 2047 := fun hc => h1 (BitVec.eq_of_toNat_eq hc)
  unfold F64.ofBits
  dsimp only
  rw [if_neg he, h2, h3]
  by_cases hz : b.extractLsb' 52 11 = 0#11
  · rw [if_pos (by rw [hz]; rfl), if_pos hz]
  · rw [if_neg (show ¬ (b.extractLsb' 52 11).toNat = 0 from fun hc => hz (BitVec.eq_of_toNat_eq hc)), if_neg hz]

theorem ofBits_of_nan {b : BitVec 64} (he : b.extractLsb' 52 11 = 0x7FF#11) (hf : b.extractLsb' 0 52 ≠ 0#52) :
    F64.ofBits b = .nan := by
  unfold F64.ofBits
  dsimp only
  rw [he, if_pos (show (0x7FF#11).toNat = 2047 from rfl), if_neg (show ¬ (b.extractLsb' 0 52).toNat = 0 from fun hc => hf (BitVec.eq_of_toNat_eq hc))]

theorem ofBits_of_inf {b : BitVec 64} (he : b.extractLsb' 52 11 = 0x7FF#11) (hf : b.extractLsb' 0 52 = 0#52) :
    F64.ofBits b = .inf (b.getLsbD 63) := by
  unfold F64.ofBits
  dsimp only
  rw [he, hf, if_pos (show (0x7FF#11).toNat = 2047 from rfl), if_pos (show (0#52).toNat = 0 from rfl)]

theorem mul_finite (a b : Bool) (m k : Nat) : F64.mul (.finite a m) (.finite b k) = F64.round (a ^^ b) (m * k) F64.one := rfl

theorem sub_inf_finite (a b : Bool) (k : Nat) : F64.sub (.inf a) (.finite b k) = .inf a := rfl

theorem sub_finite (a b : Bool) (m k : Nat) :
    F64.sub (.finite a m) (.finite b k) =
      if F64.signed a m - F64.signed b k = 0 then .finite (a && !b) 0
      else F64.round (F64.signed a m - F64.signed b k < 0) (F64.signed a m - F64.signed b k).natAbs 1 := rfl

theorem wishOf_inf (p : Params) (neg : Bool) : wishOf p (.inf neg) = if neg then .noExtra else .unbounded := by
  cases neg <;> rfl

theorem wishOf_finite (p : Params) (neg : Bool) (mag : Nat) :
    wishOf p (.finite neg mag) =
      if F64.truncFinite neg mag > p.wantMin then .bits (F64.truncFinite neg mag) else .noExtra := rfl

theorem truncFinite_zero (neg : Bool) : F64.truncFinite neg 0 = 0 := by
  unfold F64.truncFinite F64.signed
  generalize F64.one = o
  rw [Nat.zero_div]
  cases neg <;> rfl

end Sys2Proof.Machine
end

