-- ==== Sys2Proof/Tests/Slice0.lean ====
section
/-! SUPPORT. The model's own tests: ill-formed assembler lines, words written out bit by bit, one or two vectors of
95_test_vectors.md for each command, and for every statement a witness that its hypotheses can be met together. -/

namespace Sys2Proof.Tests

open Sys2Proof Sys2Proof.Machine

/-- A small state: the four registers of the notation (OCC, CAP, PHASE, FAULT) of 95_test_vectors.md, the ports idle. -/
def small (occ : Int) (cap : Nat) (phase : Phase) (fault : FaultCode) : State :=
  { State.reset with occ := BitVec.ofInt 32 occ, cap := BitVec.ofNat 12 cap, phase := phase, fault := fault }

/-- The four registers of a state, in that notation. -/
def regs (s : State) : Int × Nat × Phase × FaultCode := (s.occ.toInt, s.cap.toNat, s.phase, s.fault)

/-- The pins of an edge: `cmd_valid`, `cmd_data`, `rsp_ready`, without reset. -/
def pinsOf (valid : Bool) (cw : CommandWord) (ready : Bool) : Pins := ⟨false, valid, cw, ready⟩

/-- The pins of an edge with reset. -/
def resetPins : Pins := ⟨true, false, 0#128, false⟩

/-- The state after one clock edge. -/
def edge (s : State) : State :=
  match step s with
  | .next t => t
  | .fault _ => s
  | .refused _ => s

/-! ### Well-formedness: an ill-formed line for each check, refused; and well-formed ones (30_encoding.md R74) -/

theorem test_wellFormed_commands :
    Instr.wellFormed (.beginFrame .v2 0#16 65535#16 65535#16) = true ∧ Instr.wellFormed (.maxBits .mono 0#16 0#64) = true ∧
    Instr.wellFormed (.adjust .stereo 0#16 4095#12) = true ∧ Instr.wellFormed (.endFrame .v1 .mono 0#16 ⟨0#12, 0#12, 0#12, 0#12⟩) = true := by
  decide

theorem test_illFormed_number_out_of_range :
    assemble (.command .beginFrame [.version .v1, .fl 65536, .ro 0]) = none ∧
    assemble (.command .beginFrame [.version .v1, .fl 0, .ro 65536]) = none ∧
    assemble (.command .adjust [.ch 1, .mean 65536, .cl 0]) = none ∧
    assemble (.command .adjust [.ch 1, .mean 0, .cl 4096]) = none := by decide

theorem test_illFormed_channels :
    assemble (.command .adjust [.ch 0, .mean 0, .cl 0]) = none ∧ assemble (.command .adjust [.ch 3, .mean 0, .cl 0]) = none := by
  decide

theorem test_illFormed_entropy_too_long :
    assemble (.command .maxBits [.ch 1, .mean 0, .pe (.bits 18446744073709551616)]) = none := by decide

theorem test_illFormed_slots :
    assemble (.command .endFrame [.slots 4096 0 0 0]) = none ∧ assemble (.command .endFrame [.slots 0 4096 0 0]) = none ∧
    assemble (.command .endFrame [.slots 0 0 4096 0]) = none ∧ assemble (.command .endFrame [.slots 0 0 0 4096]) = none := by decide

theorem test_illFormed_foreign_or_repeated_field :
    assemble (.command .beginFrame [.version .v1, .cl 0]) = none ∧ assemble (.command .adjust [.cl 1, .cl 1]) = none := by decide

theorem test_illFormed_reset_of_no_cycle :
    assemble (.reset 0) = none ∧ assemble (.reset 3) = some (.reset 3) := by decide

/-- The fields of a line in another order, and an omitted one that reads 0 (program P2 line 2, and SRC1 without its mean). -/
theorem test_assemble_order_and_omission :
    assemble (.command .adjust [.cl 300, .ch 1, .mean 800]) = some (.word 0x0000000000000000000000012C032002#128) ∧
    assemble (.command .beginFrame [.fl 6672, .version .v1]) = some (.word 0x00000000000000000000001A10000000#128) := by decide

/-- The decimal literal of vector M8 denotes the pattern the vector gives. -/
theorem test_assemble_decimal : peBits (.decimal false 2261290322580645 (-13)) = 0x406C442108421084#64 := by decide +kernel

/-! ### Words written out bit by bit from the table of 30_encoding.md R59, high fields first -/

/-- RO = 64, FL = 6672, M = 1400, CW[7:3] ignored, VER = 1, OP = 00. -/
theorem test_decode_beginFrame :
    decode (0#72 ++ 0b0000000001000000#16 ++ 0b0001101000010000#16 ++ 0b0000010101111000#16 ++ 0b00000#5 ++ 0b1#1 ++ 0b00#2)
      = .beginFrame .v2 1400#16 6672#16 64#16 := by decide

/-- PE = 500.0, CW[63:24] ignored (here ones), M = 1400, CW[7:4] ignored, CH = 1, CW[2] ignored, OP = 01. -/
theorem test_decode_maxBits :
    decode (0b0100000001111111010000000000000000000000000000000000000000000000#64 ++ 0xFFFFFFFFFF#40 ++ 0b0000010101111000#16 ++ 0b1111#4 ++ 0b1#1
      ++ 0b1#1 ++ 0b01#2) = .maxBits .stereo 1400#16 0x407F400000000000#64 := by decide

/-- CW[127:36] ignored, CL = 550, M = 600, CW[7:4] ignored, CH = 0, CW[2] ignored, OP = 10. -/
theorem test_decode_adjust :
    decode (0#92 ++ 0b001000100110#12 ++ 0b0000001001011000#16 ++ 0b0000#4 ++ 0b0#1 ++ 0b1#1 ++ 0b10#2)
      = .adjust .mono 600#16 550#12 := by decide

/-- CW[127:72] ignored, S3 = 695, S2 = 790, S1 = 600, S0 = 650, M = 1400, CW[7:4] ignored, CH = 1, VER = 0, OP = 11. -/
theorem test_decode_endFrame :
    decode (0#56 ++ 0b001010110111#12 ++ 0b001100010110#12 ++ 0b001001011000#12 ++ 0b001010001010#12 ++ 0b0000010101111000#16
      ++ 0b0000#4 ++ 0b1#1 ++ 0b0#1 ++ 0b11#2) = .endFrame .v1 .stereo 1400#16 ⟨650#12, 600#12, 790#12, 695#12⟩ := by decide

/-- The host's two entries: a table word decodes, and runs as the first instruction after reset (SRC1; F2). -/
theorem test_tableWord_runs :
    decodeTableWord 128 0x1A10000000 = some (.beginFrame .v1 0#16 6672#16 0#16) ∧
    edge (State.reset.withFetchWord 128 0x1A10000000) = { small 0 1008 .granuleLoop .none with port := .responding 0#128 } ∧
    edge (State.reset.withFetchWord 128 0x1) = { small 0 0 .fault .seq with port := .responding 0xE#128 } := by decide

/-! ### Vectors of 95_test_vectors.md -/

/-- B3 and B6: the two limits at their boundary. -/
theorem test_beginFrame_capacity :
    regs (commit (.beginFrame .v1 0#16 3592#16 0#16) State.reset) = (0, 4088, .granuleLoop, .none) ∧
    regs (commit (.beginFrame .v2 0#16 5641#16 0#16) State.reset) = (0, 2039, .granuleLoop, .none) := by decide

/-- F7: RO one byte off. -/
theorem test_beginFrame_desync :
    commit (.beginFrame .v1 0#16 6672#16 72#16) (small 64 1008 .frameDone .none) =
      { small 64 1008 .fault .desync with port := .responding 5#128 } := by decide

/-- M9: a wish of trunc(100.6) = 100 is not above 100. -/
theorem test_maxBits_threshold :
    answer (.maxBits .mono 600#16 0x406C400000000000#64) (small 100 1000 .granuleLoop .none) =
      some 0x02580008#128 := by decide +kernel

/-- M14: the draw limit of a negative occupancy is rounded toward zero. -/
theorem test_maxBits_negative_occupancy :
    answer (.maxBits .mono 600#16 0x407F400000000000#64) (small (-7) 1000 .granuleLoop .none) =
      some 0x02540008#128 := by decide +kernel

/-- A block built with another setting, WANT_MIN 99: the wish of 100 of vector M9 is now taken, and min(100, 60) is drawn. -/
theorem test_maxBits_setting :
    answer (.maxBits .mono 600#16 0x406C400000000000#64)
      { small 100 1000 .granuleLoop .none with params := { Config.params with wantMin := 99 } } = some 0x02940008#128 := by decide +kernel

/-- A reset edge leaves a block as it is built. -/
theorem test_reset_keeps_setting :
    (edge { State.reset with pins := [resetPins], params := { Config.params with wantMin := 99 } }).params.wantMin = 99 := by decide

/-- A2: an odd M loses a bit, and OCC may become negative. -/
theorem test_adjust_negative :
    commit (.adjust .stereo 1201#16 700#12) (small 0 1000 .granuleLoop .none) =
      { small (-100) 1000 .granuleLoop .none with port := .responding 0x10#128 } := by decide

/-- A5: one below the least value of OCC. -/
theorem test_adjust_overflow :
    commit (.adjust .mono 0#16 11#12) (small (-2147483638) 1000 .granuleLoop .none) =
      { small (-2147483638) 1000 .fault .ovf with port := .responding 0x17#128 } := by decide

/-- EF11: clamp, alignment and Plan B over four slots; S0' to S3' are 4095, 4095, 4095, 820. -/
theorem test_endFrame_planB :
    commit (.endFrame .v1 .stereo 1200#16 ⟨4000#12, 3000#12, 4095#12, 10#12⟩) (small 3000 1007 .granuleLoop .none) =
      { small 1000 1007 .frameDone .none with port := .responding 0x334FFFFFFFFF0018#128 } := by decide +kernel

/-- EF19: the largest budget. -/
theorem test_endFrame_largest_budget :
    commit (.endFrame .v2 .stereo 1201#16 ⟨0#12, 0#12, 0#12, 0#12⟩) (small 2147483647 0 .granuleLoop .none) =
      { small 0 0 .frameDone .none with port := .responding 0x000000007FFFE002000000FFFFFF0018#128 } := by decide +kernel

/-- Program P4, line 2: a rejected command repeats the code and changes nothing. -/
theorem test_rejected :
    commit (.beginFrame .v1 600#16 6672#16 0#16) (small 0 0 .fault .seq) =
      { small 0 0 .fault .seq with port := .responding 2#128 } := by decide

/-- OutputsShowRegisters has no hypothesis; program P2, end state, on the output pins: FAULT = 1 and `fault_o` = 1. -/
theorem test_outputs :
    outputs false (small 496 2040 .fault .desync) = ⟨true, false, none, 496#32, 2040#12, 3#2, 1#2, true⟩ := by decide

/-! ### Witnesses: for every statement with hypotheses, a case that meets them all, at the boundaries of each clause -/

/-- IgnoredBitsHaveNoEffect: two words of MAX_BITS that differ in ignored bits only, and a BEGIN_FRAME line without and with a mean. -/
theorem test_witness_ignored_bits :
    0x407F40000000000000000000000578F9#128 ≠ 0x407F4000000000000000000000057809#128 ∧
    (decode 0x407F40000000000000000000000578F9#128).opcode = (decode 0x407F4000000000000000000000057809#128).opcode ∧
    0x407F40000000000000000000000578F9#128 &&& usedBits (decode 0x407F40000000000000000000000578F9#128).opcode =
      0x407F4000000000000000000000057809#128 &&& usedBits (decode 0x407F40000000000000000000000578F9#128).opcode ∧
    assemble (.command .beginFrame [.version .v2, .fl 65535, .ro 65535]) = some (.word 0x000000000000000000FFFFFFFF000004#128) ∧
    assemble (.command .beginFrame [.version .v2, .mean 65535]) = some (.word 0x00000000000000000000000000FFFF04#128) := by decide

/-- OpcodeSelectsCommand: a word for each value of OP, every other bit 1. -/
theorem test_witness_opcodes :
    (0xFFFFFFFFFFFFFFFFFFFFFFFFFFFFFFFC#128).extractLsb' 0 2 = 0#2 ∧ (0xFFFFFFFFFFFFFFFFFFFFFFFFFFFFFFFD#128).extractLsb' 0 2 = 1#2 ∧
    (0xFFFFFFFFFFFFFFFFFFFFFFFFFFFFFFFE#128).extractLsb' 0 2 = 2#2 ∧ (0xFFFFFFFFFFFFFFFFFFFFFFFFFFFFFFFF#128).extractLsb' 0 2 = 3#2 := by
  decide

/-- AssemblerLinesDecode: a line of each mnemonic at the ends of its ranges, whole and in reverse order or with fields omitted. -/
theorem test_witness_lines :
    ([.mean 65535, .ro 65535, .fl 65535, .version .v2] : List AsmField).Subperm [.version .v2, .fl 65535, .ro 65535, .mean 65535] ∧
    ([.ro 65535] : List AsmField).Subperm [.version .v2, .fl 65535, .ro 65535, .mean 65535] ∧
    ([.pe (.bits 18446744073709551615), .mean 0, .ch 1] : List AsmField).Subperm
      [.ch (channelCount .mono), .mean 0, .pe (.bits 18446744073709551615)] ∧
    18446744073709551615 < 2 ^ 64 ∧
    ([.pe (.decimal true 5 (-324)), .ch 2] : List AsmField).Subperm
      [.ch (channelCount .stereo), .mean 0, .pe (.decimal true 5 (-324))] ∧
    ([.cl 4095, .mean 65535, .ch 2] : List AsmField).Subperm [.ch (channelCount .stereo), .mean 65535, .cl 4095] ∧
    ([] : List AsmField).Subperm [.ch (channelCount .stereo), .mean 65535, .cl 4095] ∧
    ([.slots 4095 0 4095 0, .mean 1, .ch 2, .version .v1] : List AsmField).Subperm
      [.version .v1, .ch (channelCount .stereo), .mean 1, .slots 4095 0 4095 0] := by decide

/-- AssemblerLinesDecode: the literal −5e-324 rounds to the negative smallest subnormal. -/
theorem test_witness_decimal :
    AsmField.pe (.decimal true 5 (-324)) ∈ ([.pe (.decimal true 5 (-324)), .ch 2] : List AsmField) ∧
    peBits (.decimal true 5 (-324)) = 0x8000000000000001#64 := by decide +kernel

/-- ResetDirectiveResets: two edges with `rst` = 1 and a third pin sample after them. -/
theorem test_witness_reset_directive :
    1 ≤ 2 ∧ [resetPins, resetPins].length = 2 ∧ (∀ p ∈ [resetPins, resetPins], p.rst = true) ∧
    State.pins { small 8 8 .fault .ovf with pins := [resetPins, resetPins, pinsOf true 1#128 true] } =
      [resetPins, resetPins] ++ [pinsOf true 1#128 true] := by decide

/-- The command of program P1 line 1, due at the next edge. -/
def dueState : State := { State.reset with port := .executing 0x1A10057800#128 0, pins := [pinsOf false 0#128 false] }

/-- A state whose response is on offer, and whether the next edge takes it. -/
def offerState (ready : Bool) : State :=
  { small 0 1008 .granuleLoop .none with port := .responding 0#128, pins := [pinsOf true 0#128 ready] }

/-- An idle state at whose next edge the host offers P1 line 1, with a latency of `d + 1`. -/
def acceptState (d : Nat) : State := { State.reset with pins := [pinsOf true 0x1A10057800#128 false], delays := [d] }

/-- StepExecutesDueCommand. -/
theorem test_witness_due : dueState.port = .executing 0x1A10057800#128 0 ∧ dueState.nextPins.rst = false := by decide

/-- AcceptanceCondition: both sides are met. -/
theorem test_witness_acceptance :
    (edge (acceptState 2)).port = .executing 0x1A10057800#128 2 ∧ (acceptState 2).nextPins.rst = false ∧
    (acceptState 2).nextPins.cmdValid = true ∧ cmdReady (acceptState 2).nextPins.rst (acceptState 2) = true ∧
    (acceptState 2).nextPins.cmdData = 0x1A10057800#128 := by decide

/-- ReadyFallsAndRises: ready with and without a command, not ready with the response taken and held. -/
theorem test_witness_ready :
    ((acceptState 0).nextPins.rst = false ∧ cmdReady false (acceptState 0) = true ∧ cmdReady false (edge (acceptState 0)) = false) ∧
    (State.reset.nextPins.rst = false ∧ cmdReady false State.reset = true ∧ cmdReady false (edge State.reset) = true) ∧
    ((offerState true).nextPins.rst = false ∧ cmdReady false (offerState true) = false ∧ cmdReady false (edge (offerState true)) = true) ∧
    ((offerState false).nextPins.rst = false ∧ cmdReady false (offerState false) = false ∧
      cmdReady false (edge (offerState false)) = false) := by decide

/-- ResponseAfterLatency: latencies 1 and 3; k runs over 0 and over 0 to 2. -/
theorem test_witness_latency :
    ∀ d ∈ [0, 2], (acceptState d).port = .idle ∧ (acceptState d).nextPins.cmdValid = true ∧ (acceptState d).nextDelay = d ∧
      ∀ p ∈ (acceptState d).pins.take ((acceptState d).nextDelay + 2), p.rst = false := by decide

/-- ResponseHeldUntilTaken, IdleBlockHoldsItsState. -/
theorem test_witness_held_and_idle :
    (∀ b, offered (offerState b) = some 0#128 ∧ (offerState b).nextPins.rst = false ∧ (offerState b).nextPins.rspReady = b) ∧
    State.reset.port = .idle ∧ State.reset.nextPins.rst = false ∧ State.reset.nextPins.cmdValid = false := by decide

/-- StatusChangesAtResponseOrReset: an edge of each kind. -/
theorem test_witness_status_changes :
    step dueState = .next (edge dueState) ∧ (edge dueState).cap ≠ dueState.cap ∧ offered dueState = none ∧
    (offered (edge dueState)).isSome = true ∧
    step { small 8 8 .frameDone .none with pins := [resetPins] } = .next (edge { small 8 8 .frameDone .none with pins := [resetPins] }) ∧
    (edge { small 8 8 .frameDone .none with pins := [resetPins] }).occ ≠ (small 8 8 .frameDone .none).occ :=
  ⟨rfl, by decide, by decide, by decide, rfl, by decide⟩

/-- A transaction with a gap, two waiting edges and a held response. -/
def transaction : Transaction where
  gap := [pinsOf false 0#128 false]
  accept := pinsOf true 0x1A10057800#128 false
  wait := [pinsOf true 1#128 true, pinsOf false 0#128 false]
  due := pinsOf false 0#128 false
  hold := [pinsOf true 2#128 false]
  take := pinsOf false 0#128 true

/-- SessionRefinesExecute: two transactions, more pins after them; and what they give on the ports. -/
theorem test_witness_session :
    (∀ t ∈ [transaction, transaction], t.Proper) ∧ State.reset.port = .idle ∧
    observe 14 { State.reset with pins := sessionPins [transaction, transaction], delays := [2, 2] } = [0#128, 6#128] := by
  refine ⟨fun t ht => ?_, rfl, by decide⟩
  obtain rfl : t = transaction := by simpa using ht
  exact ⟨by decide, by decide, by decide, by decide, by decide⟩

/-- ResetEdgeFromEveryState: a command in flight in PHASE = FAULT. -/
theorem test_witness_reset :
    State.nextPins { small (-8) 8 .fault .desync with port := .executing 1#128 3, pins := [resetPins] } |>.rst := by decide

/-- StartCapacityUnobservable, with a capacity that reset never leaves. -/
theorem test_witness_start_capacity : (small 0 4095 .frameStart .none).phase = .frameStart := by decide

/-- PrologueRejectsOrRaisesSeq: the rejection, and SEQ on both sides of the equivalence. -/
theorem test_witness_prologue :
    (small 0 0 .fault .ovf).phase = .fault ∧
    ((small 0 0 .granuleLoop .none).phase ≠ .fault ∧
      (Instr.opcode (.beginFrame .v1 0#16 0#16 0#16) = .beginFrame ↔ (small 0 0 .granuleLoop .none).phase = .granuleLoop)) ∧
    ((small 0 0 .frameDone .none).phase ≠ .fault ∧
      (Instr.opcode (.adjust .mono 0#16 0#12) = .beginFrame ↔ (small 0 0 .frameDone .none).phase = .granuleLoop)) := by decide

/-- RaisedFaultsArePrecise: an ADJUST that overflows. -/
theorem test_witness_raised :
    exec (.adjust .mono 0#16 11#12) (small (-2147483638) 1000 .granuleLoop .none) =
      .next { small (-2147483638) 1000 .fault .ovf with port := .responding 0x17#128 } ∧ rwRaised 0x17#128 = true :=
  ⟨rfl, by decide⟩

/-- OnlyResetLeavesFault: the reset edge leaves it. -/
theorem test_witness_leaves_fault :
    (small 0 0 .fault .seq).phase = .fault ∧
    step { small 0 0 .fault .seq with pins := [resetPins] } = .next (edge { small 0 0 .fault .seq with pins := [resetPins] }) ∧
    (edge { small 0 0 .fault .seq with pins := [resetPins] }).phase ≠ .fault := ⟨by decide, rfl, by decide⟩

/-- FaultKeepsFirstCode: an edge that gives a response (F8). -/
theorem test_witness_fault_keeps :
    let s := { small 496 2040 .fault .desync with port := .executing 0x40590000000000000000000000032001#128 0 }
    s.phase = .fault ∧ s.nextPins.rst = false ∧ offered s = none ∧ offered (edge s) = some 9#128 := by decide

/-- CommandsWriteOnlyTheirRegisters: commands that change CAP, OCC and FAULT. -/
theorem test_witness_writes :
    (commit (.beginFrame .v1 0#16 6672#16 0#16) State.reset).cap ≠ State.reset.cap ∧
    (commit (.adjust .mono 600#16 550#12) (small 500 1000 .granuleLoop .none)).occ ≠ (small 500 1000 .granuleLoop .none).occ ∧
    (commit (.adjust .mono 600#16 550#12) State.reset).fault ≠ State.reset.fault ∧
    exec (.adjust .mono 600#16 550#12) State.reset = .next (commit (.adjust .mono 600#16 550#12) State.reset) :=
  ⟨by decide, by decide, by decide, rfl⟩

/-- BeginFrameSetsCapacity and BeginFrameIdempotenceBoundary: both phases, the largest RO, FL on both sides of 7680. -/
theorem test_witness_begin_frame :
    ((small 0 0 .frameStart .none).phase = .frameStart ∧ ((0#16).toNat : Int) = (small 0 0 .frameStart .none).occ.toInt ∧
      (small 0 0 .frameStart .none).fault = .none) ∧
    ((small 65535 0 .frameDone .none).phase = .frameDone ∧ ((65535#16).toNat : Int) = (small 65535 0 .frameDone .none).occ.toInt) ∧
    (commit (.beginFrame .v1 0#16 7680#16 65535#16) (small 65535 9 .frameDone .none)).cap = 0#12 ∧
    (commit (.beginFrame .v2 0#16 7681#16 65535#16) (small 65535 9 .frameDone .none)).cap = 0#12 ∧
    (commit (.beginFrame .v2 0#16 7681#16 65535#16) (small 65535 9 .frameDone .none)).fault = .none := by decide

/-- BeginFrameMismatchDesyncs and NegativeOccupancyDesyncs: an occupancy that no RO equals, and an RO one too large. -/
theorem test_witness_desync :
    (small (-1) 8 .frameDone .none).occ.toInt < 0 ∧ ((65535#16).toNat : Int) ≠ (small (-1) 8 .frameDone .none).occ.toInt ∧
    ((9#16).toNat : Int) ≠ (small 8 8 .frameDone .none).occ.toInt ∧ (small (-1) 8 .frameStart .none).phase = .frameStart ∧
    (small (-1) 8 .frameDone .none).phase = .frameDone := by decide

/-- The default setting is legal: the premise of MaxBitsAnswersAllowed, DisciplineKeepsOccupancyNonnegative, AllowedGrowsWithEntropy and
DisciplinedSessionNeverFaults, met by every state that `small` builds. -/
theorem test_witness_setting : State.reset.params.Legal :=
  ⟨by decide, by decide, by decide, by decide, by decide, by decide⟩

/-- MaxBitsAnswersAllowed, AdjustCommitsOrOverflows and the END_FRAME statements: PHASE = GRANULE_LOOP; NoCapacityNoBorrowing: with
CAP = 0. -/
theorem test_witness_granule_loop :
    (small 0 0 .granuleLoop .none).phase = .granuleLoop ∧ (small 0 0 .granuleLoop .none).cap = 0#12 := by decide

/-- OverdraftTakesTheLarger: below, at and above the high mark. -/
theorem test_witness_overdraft :
    (0 : Int) ≤ 1000 ∧ extraBits Config.params 799 1000 600 0#64 = 0 ∧ extraBits Config.params 800 1000 600 0#64 = 0 ∧
    extraBits Config.params 801 1000 600 0#64 = 1 := by decide +kernel

/-- AllowedBounds: the parameters are legal, and the ranges of OCC and CAP are met at both ends, with CAP = 0 and with OCC = 0. -/
theorem test_witness_bounds :
    Config.params.Legal ∧ Params.Legal ⟨0x8000000000000000#64, 0, 0, 1, 0, 1⟩ ∧ ((-2 : Int) ^ 31 ≤ 2 ^ 31 - 1) ∧ ((0 : Int) ≤ 0 ∧ (0 : Int) ≤ 4095) ∧
    (-2 ^ 31 ≤ (0 : Int) ∧ (0 : Int) ≤ 2 ^ 31 - 1) :=
  ⟨test_witness_setting, ⟨by decide, by decide, by decide, by decide, by decide, by decide⟩, by decide, by decide, by decide⟩

/-- WishOfSpecialEntropies: settings whose K_PE is a NaN, an infinity and a zero. -/
theorem test_witness_special_settings :
    (0x7FF8000000000000#64).extractLsb' 52 11 = 0x7FF#11 ∧ (0x7FF8000000000000#64).extractLsb' 0 52 ≠ 0#52 ∧
    wanted { Config.params with kPe := 0x7FF8000000000000#64 } 0x407F400000000000#64 600 = .noExtra ∧
    (0x8000000000000000#64).extractLsb' 0 63 = 0#63 ∧ (0x7FF0000000000000#64).extractLsb' 0 63 ≠ 0#63 ∧
    wanted { Config.params with kPe := 0x7FF0000000000000#64 } 0x8000000000000000#64 600 = .noExtra ∧
    wanted { Config.params with kPe := 0x8000000000000000#64 } 0x7FF0000000000000#64 600 = .noExtra ∧
    wanted { Config.params with kPe := 0xFFF0000000000000#64 } 0x8000000000000001#64 600 = .unbounded ∧
    wanted { Config.params with kPe := 0xFFF0000000000000#64 } 0x7FF0000000000000#64 600 = .noExtra := by decide +kernel

/-- WishOfSpecialEntropies: a NaN with a sign, and a wish of 101 (M8). -/
theorem test_witness_wishes :
    (0xFFF8000000000001#64).extractLsb' 52 11 = 0x7FF#11 ∧ (0xFFF8000000000001#64).extractLsb' 0 52 ≠ 0#52 ∧
    wanted Config.params 0x406C442108421084#64 600 = .bits 101 ∧ wanted Config.params 0xFFF8000000000001#64 0 = .noExtra ∧
    wanted Config.params 0xFFF0000000000000#64 4095 = .noExtra ∧ wanted Config.params 0x7FF0000000000000#64 4095 = .unbounded := by
  decide +kernel

/-- WishOfFiniteEntropies: vectors M8 and M9 (one product, either side of 101), the largest finite entropy of either sign, whose product
is infinite, a negative K_PE, and the smallest subnormal. -/
theorem test_witness_finite_entropies :
    F64.Denotes Config.params.kPe false (0x18CCCCCCCCCCCD * 2 ^ 1023) ∧
    F64.Denotes 0x406C442108421084#64 false (0x1C442108421084 * 2 ^ 1029) ∧
    wanted Config.params 0x406C442108421084#64 600 = .bits 101 ∧ wanted Config.params 0x406C400000000000#64 600 = .noExtra ∧
    F64.Denotes 0xFFEFFFFFFFFFFFFF#64 true (0x1FFFFFFFFFFFFF * 2 ^ 2045) ∧
    F64.round true (0x1FFFFFFFFFFFFF * 2 ^ 2045 * (0x18CCCCCCCCCCCD * 2 ^ 1023)) F64.one = .inf true ∧
    wanted Config.params 0xFFEFFFFFFFFFFFFF#64 0 = .noExtra ∧ wanted Config.params 0x7FEFFFFFFFFFFFFF#64 4095 = .unbounded ∧
    F64.Denotes 0x0000000000000001#64 false 1 ∧ F64.Denotes 0xC008CCCCCCCCCCCD#64 true (0x18CCCCCCCCCCCD * 2 ^ 1023) ∧
    wanted { Config.params with kPe := 0xC008CCCCCCCCCCCD#64 } 0xC06C442108421084#64 600 = .bits 101 := by
  unfold F64.Denotes
  decide +kernel

/-- AllowedGrowsWithEntropy: from +0 to the pattern of +∞. -/
theorem test_witness_entropies :
    (0 : Int) ≤ 1000 ∧ Config.params.kPe.toNat ≤ 0x7FF0000000000000 ∧ (0#64).toNat ≤ (0x7FF0000000000000#64).toNat ∧ (0x7FF0000000000000#64).toNat ≤ 0x7FF0000000000000 ∧
    allowedBits Config.params 1000 1000 .mono 600#16 0#64 = 800 ∧
    allowedBits Config.params 1000 1000 .mono 600#16 0x7FF0000000000000#64 = 1200 := by decide +kernel

/-- RoundingIsNearestEven: a tie, to the even neighbour below and above; the last magnitude that stays finite is not reached by the
first that is an infinity. -/
theorem test_witness_rounding :
    0 < 2 ∧ F64.round false 5 2 = .finite false 2 ∧ F64.round true 7 2 = .finite true 4 ∧
    (2 * F64.tooLarge - F64.topSpacing) * 1 ≤ 2 * (F64.tooLarge - F64.topSpacing / 2) ∧
    F64.round false (F64.tooLarge - F64.topSpacing / 2) 1 = .inf false ∧
    F64.round false (F64.tooLarge - F64.topSpacing / 2 - 1) 1 = .finite false (F64.tooLarge - F64.topSpacing) := by decide +kernel

/-- AdjustCommitsOrOverflows: the largest and least results that fit (A8, A9), and one past each (A5 and A8 with CL one less). -/
theorem test_witness_adjust :
    (2147482047 + 5695 - 4095 : Int) ≤ 2 ^ 31 - 1 ∧ (-2 ^ 31 : Int) ≤ -2147479553 - 4095 ∧ (2 ^ 31 - 1 : Int) < 2147482047 + 5695 - 4094 ∧
    (-2147483638 - 11 : Int) < -2 ^ 31 ∧
    regs (commit (.adjust .mono 5695#16 4095#12) (small 2147482047 1000 .granuleLoop .none)) = (2147483647, 1000, .granuleLoop, .none) ∧
    regs (commit (.adjust .mono 5695#16 4094#12) (small 2147482047 1000 .granuleLoop .none)) = (2147482047, 1000, .fault, .ovf) := by
  decide +kernel

/-- NoOverflowWithinSlotBudget: the greatest occupancy, and one slot. -/
theorem test_witness_slot_budget :
    (small 4088 4088 .granuleLoop .none).phase = .granuleLoop ∧ (small 4088 4088 .granuleLoop .none).fault = .none ∧
    0 ≤ (small 4088 4088 .granuleLoop .none).occInt ∧ (small 4088 4088 .granuleLoop .none).occInt ≤ 4088 ∧
    [GranuleCall.mk .mono 65535#16 0#64 0#12].length ≤ 32768 := by decide

/-- DisciplineKeepsOccupancyNonnegative: CL at the ALLOWED of M3, from an OCC that is not negative. -/
theorem test_witness_discipline :
    (small 900 1000 .granuleLoop .none).phase = .granuleLoop ∧ 0 ≤ (small 900 1000 .granuleLoop .none).occ.toInt ∧
    answer (.maxBits .mono 600#16 0#64) (small 900 1000 .granuleLoop .none) = some 0x02BC0008#128 ∧
    ((700#12).toNat : Int) ≤ rwAllowed 0x02BC0008#128 := by decide +kernel

/-- EndFrameConservesBits and EndFrameLeavesAlignedOccupancy: Plan A's last budget (EF9), and a −1 that the parity bit lifts (EF16). -/
theorem test_witness_end_frame :
    ((3994#12).toNat : Int) + 100 < 4095 ∧
    0 ≤ (small (-1) 1000 .granuleLoop .none).occ.toInt + (if Channels.stereo = .stereo ∧ (1201#16).toNat % 2 = 1 then 1 else 0) ∧
    regs (commit (.endFrame .v1 .stereo 1201#16 ⟨100#12, 0#12, 0#12, 0#12⟩) (small (-1) 1000 .granuleLoop .none)) =
      (0, 1000, .frameDone, .none) := by decide

/-- InactiveSlotsUntouched: an inactive slot, and two vectors that agree on the active ones. -/
theorem test_witness_inactive :
    (1 : Fin 4) ∉ activeSlots .v1 .mono ∧
    (∀ k ∈ activeSlots .v1 .mono, slotOf ⟨1#12, 2#12, 3#12, 4#12⟩ k = slotOf ⟨1#12, 9#12, 3#12, 9#12⟩ k) := by decide

/-- DrainIsWhatNoSlotTakes and SlotsFillInOrder: the first and the last slot of V1 stereo. -/
theorem test_witness_slots :
    (0 : Int) ≤ 2000 ∧ activeSlots .v1 .stereo = [] ++ 0 :: [1, 2, 3] ∧ activeSlots .v1 .stereo = [0, 1, 2] ++ 3 :: [] := by decide

/-- PlansMeetWithoutGap: budgets at 4095 and one on each side. -/
theorem test_witness_plans :
    (0 : Int) < 100 ∧ ((slotOf ⟨3994#12, 0#12, 0#12, 0#12⟩ 0).toNat : Int) + 100 ≤ 4095 ∧
    ((slotOf ⟨3995#12, 0#12, 0#12, 0#12⟩ 0).toNat : Int) + 100 = 4095 ∧
    4095 < ((slotOf ⟨3996#12, 0#12, 0#12, 0#12⟩ 0).toNat : Int) + 100 := by decide

/-- EveryStepKeepsInvariant: a state that is not the reset state, with a command due, and its next state. -/
theorem test_witness_invariant :
    State.Inv { small 500 1000 .granuleLoop .none with port := .executing 0x226025802#128 0 } ∧
    step { small 500 1000 .granuleLoop .none with port := .executing 0x226025802#128 0 } =
      .next { small 550 1000 .granuleLoop .none with port := .responding 0x10#128 } := by
  refine ⟨⟨by decide, by decide, by decide, by decide, fun rw h => ?_, test_witness_setting⟩, rfl⟩
  exact absurd h (by simp)

/-- CapacityFollowsLastBeginFrame: a reset edge from a state with another capacity, and a step from a state whose CAP is that of a V2
frame to one whose CAP is that of a V1 frame. -/
theorem test_witness_capacity_step :
    State.nextPins { small 8 9 .fault .seq with pins := [resetPins] } = resetPins ∧ resetPins.rst = true ∧
    CapacityIs (some (.v2, 0#16)) { small 0 2040 .frameDone .none with port := .executing 0x1A10000000#128 0 } ∧
    step { small 0 2040 .frameDone .none with port := .executing 0x1A10000000#128 0 } =
      .next { small 0 1008 .granuleLoop .none with port := .responding 0#128 } ∧
    begun { small 0 2040 .frameDone .none with port := .executing 0x1A10000000#128 0 }
      { small 0 1008 .granuleLoop .none with port := .responding 0#128 } (some (.v2, 0#16)) = some (.v1, 6672#16) :=
  ⟨by decide, by decide, by unfold CapacityIs; decide, rfl, by decide⟩

/-- CapacityInReachableStates: after reset, and after a BEGIN_FRAME. -/
theorem test_witness_reachable :
    Reachable none (resetEdge (small 0 0 .fault .seq)) ∧
    ∃ s, s.cap.toNat = 1008 ∧ Reachable (some (.v1, 6672#16)) s := by
  refine ⟨.reset { small 0 0 .fault .seq with pins := [resetPins] } _ rfl rfl, ?_⟩
  have h0 : Reachable none (resetEdge { small 0 0 .fault .seq with pins := [pinsOf true 0x1A10057800#128 false] }) :=
    .reset { small 0 0 .fault .seq with pins := [resetPins, pinsOf true 0x1A10057800#128 false] } _ rfl rfl
  exact ⟨_, rfl, .edge _ _ (edge (edge (resetEdge { small 0 0 .fault .seq with pins := [pinsOf true 0x1A10057800#128 false] })))
    (.edge _ _ _ h0 rfl) rfl⟩

/-- DisciplinedSessionNeverFaults: from reset, a frame of one slot whose CL is within the bound. -/
theorem test_witness_frames :
    State.reset.BetweenFrames ∧
    FramesDisciplined [⟨.v1, 1400#16, 6672#16, [⟨.stereo, 1400#16, 0x407F400000000000#64, 650#12⟩], .v1, .stereo, 1400#16,
      ⟨650#12, 0#12, 0#12, 0#12⟩⟩] State.reset := by
  refine ⟨⟨by decide, by decide, by decide, by decide, by decide⟩, by decide, ⟨fun rw h => ?_, trivial⟩, trivial⟩
  obtain rfl : 0x02BC0008#128 = rw := by
    have h' : answer (.maxBits .stereo 1400#16 0x407F400000000000#64)
        (afterBegin ⟨.v1, 1400#16, 6672#16, [⟨.stereo, 1400#16, 0x407F400000000000#64, 650#12⟩], .v1, .stereo, 1400#16,
          ⟨650#12, 0#12, 0#12, 0#12⟩⟩ State.reset) = some 0x02BC0008#128 := by decide +kernel
    exact Option.some.inj (h'.symm.trans h)
  decide

end Sys2Proof.Tests
end

section
/-! PROOFS. 00_scope.md: the command that is due (R19), the policy setting (R12, R13), and the binary64 rounding (R17). -/

namespace Sys2Proof.Machine

/-! ### The edge at which a command is due -/

/-- Settles O7: such an edge is what `dueCommand_eq_some` calls due, and dropping the pin sample is the update written out. -/
theorem stepExecutesDueCommand : Obligations.StepExecutesDueCommand := by
  unfold Obligations.StepExecutesDueCommand
  intro s cw hport hrst
  have hdue : dueCommand s = some cw := dueCommand_eq_some.mpr ⟨hport, hrst⟩
  simp only [step, hdue, State.dropPins]

/-! ### The policy setting -/

/-- The prologue keeps the setting if the command's own rule does. -/
theorem guarded_params {op : Opcode} {body : State → State} {s : State} (h : (body s).params = s.params) :
    (guarded op body s).params = s.params := by
  rcases guarded_cases op body s with ⟨_, hg⟩ | ⟨_, _, hg⟩ | ⟨_, _, hg⟩ <;> rw [hg]
  · exact reject_params s op
  · exact h
  · exact raiseFault_params s .seq op

@[simp] theorem beginFrameBody_params (ver : Version) (fl ro : BitVec 16) (s : State) :
    (beginFrameBody ver fl ro s).params = s.params := by
  rcases beginFrameBody_cases ver fl ro s with ⟨_, h⟩ | ⟨_, h⟩ <;> simp [h]

@[simp] theorem maxBitsBody_params (ch : Channels) (m : BitVec 16) (pe : BitVec 64) (s : State) :
    (maxBitsBody ch m pe s).params = s.params := by simp [maxBitsBody]

@[simp] theorem adjustBody_params (ch : Channels) (m : BitVec 16) (cl : BitVec 12) (s : State) :
    (adjustBody ch m cl s).params = s.params := by
  rcases adjustBody_cases ch m cl s with ⟨_, h⟩ | ⟨_, h⟩ <;> simp [h]

@[simp] theorem endFrameBody_params (ver : Version) (ch : Channels) (m : BitVec 16) (t : Slots) (s : State) :
    (endFrameBody ver ch m t s).params = s.params := by simp [endFrameBody]

@[simp] theorem commit_params (i : Instr) (s : State) : (commit i s).params = s.params := by
  cases i with
  | beginFrame ver m fl ro => exact guarded_params (beginFrameBody_params ver fl ro s)
  | maxBits ch m pe => exact guarded_params (maxBitsBody_params ch m pe s)
  | adjust ch m cl => exact guarded_params (adjustBody_params ch m cl s)
  | endFrame ver ch m t => exact guarded_params (endFrameBody_params ver ch m t s)

theorem step_params {s t : State} (h : step s = .next t) : t.params = s.params := by
  rcases step_cases h with ⟨_, rfl⟩ | ⟨cw, _, _, rfl⟩ | ⟨_, _, _, rfl⟩ | ⟨cw, n, _, _, rfl⟩ | ⟨rw, _, _, _, rfl⟩ | ⟨_, rfl, _⟩
  case inr.inl => rw [commit_params, dropPins_params]
  all_goals rfl

/-- Settles O53: `step_params` for every edge; the setting right after reset is the model's constant. -/
theorem settingIsFixed : Obligations.SettingIsFixed := by
  unfold Obligations.SettingIsFixed
  exact ⟨fun _ _ => step_params, rfl⟩

/-! ### The binary64 rounding -/

/-- A grid point other than the one `roundNearestEven` picks is farther off, or as far with an even point picked. -/
theorem roundNearestEven_nearest (num den k : Nat) (hd : 0 < den) (hk : k ≠ roundNearestEven num den) :
    ((num : Int) - roundNearestEven num den * den).natAbs < ((num : Int) - k * den).natAbs ∨
    (((num : Int) - roundNearestEven num den * den).natAbs = ((num : Int) - k * den).natAbs ∧
      roundNearestEven num den % 2 = 0) := by
  obtain ⟨hup, hlow, htieUp, htieLow⟩ := roundNearestEven_spec num den hd
  generalize roundNearestEven num den = q at *
  have hq : (2 * q + 1) * den = 2 * (q * den) + den := by ring
  have hq' : 2 * q * den = 2 * (q * den) := by ring
  rw [hq] at hup htieUp
  rw [hq'] at hlow htieLow
  have far : k * den + den ≤ q * den ∨ q * den + den ≤ k * den := by
    rcases Nat.lt_or_gt_of_ne hk with h | h
    · exact .inl (by simpa [Nat.succ_mul] using Nat.mul_le_mul_right den h)
    · exact .inr (by simpa [Nat.succ_mul] using Nat.mul_le_mul_right den h)
  rw [← Nat.cast_mul, ← Nat.cast_mul]
  generalize q * den = x at *
  generalize k * den = y at *
  rcases far with h | h <;> omega

/-- How many spacings the rounded magnitude is. -/
def F64.steps (num den : Nat) : Nat := roundNearestEven num (den * 2 ^ F64.spacing num den)

theorem round_eq (neg : Bool) (num den : Nat) :
    F64.round neg num den =
      if F64.tooLarge ≤ F64.steps num den * 2 ^ F64.spacing num den then .inf neg
      else .finite neg (F64.steps num den * 2 ^ F64.spacing num den) := rfl

/-- A rounded significand has 53 bits, or is the power of two above them. -/
theorem steps_le (num den : Nat) (hd : 0 < den) : F64.steps num den ≤ 2 ^ 53 := by
  obtain ⟨hlt, -⟩ := spacing_spec num den hd
  obtain ⟨-, hlow, -⟩ := roundNearestEven_spec num (den * 2 ^ F64.spacing num den) (by positivity)
  unfold F64.steps
  by_contra! h
  have := Nat.mul_le_mul_right (den * 2 ^ F64.spacing num den) h
  nlinarith

/-- Unless the spacing is the finest one, the rounded significand is normalised. -/
theorem le_steps (num den : Nat) (hd : 0 < den) : F64.spacing num den = 0 ∨ 2 ^ 52 ≤ F64.steps num den := by
  obtain ⟨-, hz | hge⟩ := spacing_spec num den hd
  · exact .inl hz
  · obtain ⟨hup, -⟩ := roundNearestEven_spec num (den * 2 ^ F64.spacing num den) (by positivity)
    refine .inr ?_
    unfold F64.steps
    by_contra! h
    have := Nat.mul_le_mul_right (den * 2 ^ F64.spacing num den) h
    have : 0 < den * 2 ^ F64.spacing num den := by positivity
    nlinarith

/-- The powers of two below, at and above the largest spacing. -/
theorem two_pow_topSpacing (e : Nat) :
    (e < 2045 ∧ 2 * 2 ^ e ≤ F64.topSpacing) ∨ (e = 2045 ∧ 2 ^ e = F64.topSpacing) ∨
    (2045 < e ∧ 2 * F64.topSpacing ≤ 2 ^ e) := by
  rw [topSpacing_eq]
  generalize 2045 = top
  rw [← pow_succ', ← pow_succ']
  rcases lt_trichotomy e top with h | h | h
  · exact .inl ⟨h, Nat.pow_le_pow_right (by decide) h⟩
  · exact .inr (.inl ⟨h, by rw [h]⟩)
  · exact .inr (.inr ⟨h, Nat.pow_le_pow_right (by decide) h⟩)

/-- The rounding carries into a 54th bit from half a spacing below it on, as the odd significand below loses the tie. -/
theorem two_pow_le_steps_iff (num den : Nat) (hd : 0 < den) :
    2 ^ 53 ≤ F64.steps num den ↔
      2 ^ 54 * (den * 2 ^ F64.spacing num den) ≤ 2 * num + den * 2 ^ F64.spacing num den := by
  have hD : 0 < den * 2 ^ F64.spacing num den := by positivity
  obtain ⟨hup, hlow, htie, -⟩ := roundNearestEven_spec num _ hD
  rw [← F64.steps] at hup hlow htie
  generalize den * 2 ^ F64.spacing num den = D at *
  generalize F64.steps num den = q at *
  constructor
  · intro h
    have := Nat.mul_le_mul_right D h
    nlinarith
  · intro h
    by_contra! hq
    have hlast : q + 1 = 2 ^ 53 := by
      by_contra hne
      have := Nat.mul_le_mul_right D (show q + 2 ≤ 2 ^ 53 by omega)
      nlinarith
    have heven := htie (le_antisymm hup (by linarith [congrArg (· * D) hlast]))
    omega

/-- The overflow threshold: half a spacing above the largest finite value (00_scope.md R17). With a spacing below the largest
the magnitude stays below it, with a larger spacing it is past it, and at the largest spacing the carry decides. -/
theorem tooLarge_le_steps_iff (num den : Nat) (hd : 0 < den) :
    F64.tooLarge ≤ F64.steps num den * 2 ^ F64.spacing num den ↔
      (2 * F64.tooLarge - F64.topSpacing) * den ≤ 2 * num := by
  have hle := steps_le num den hd
  have hge := le_steps num den hd
  have hcarry := two_pow_le_steps_iff num den hd
  obtain ⟨hlt, hnum⟩ := spacing_spec num den hd
  have htop : 0 < F64.topSpacing := by rw [topSpacing_eq]; positivity
  have hpow := two_pow_topSpacing (F64.spacing num den)
  rw [tooLarge_eq, Nat.sub_mul, Nat.sub_le_iff_le_add]
  generalize F64.topSpacing = top at *
  generalize F64.steps num den = q at *
  rcases hpow with ⟨-, hp⟩ | ⟨-, hp⟩ | ⟨hs, hp⟩
  · have hmag := Nat.mul_le_mul_right (2 ^ F64.spacing num den) hle
    have hden := Nat.mul_le_mul_left den hp
    have := Nat.mul_pos hd htop
    exact iff_of_false (by omega) (by nlinarith)
  · rw [hp] at hcarry ⊢
    rw [Nat.mul_le_mul_right_iff htop, hcarry, mul_comm top den, show 2 * (2 ^ 53 * top) * den = 2 ^ 54 * (den * top) by ring]
  · have hq := Nat.mul_le_mul (hge.resolve_left (by omega)) hp
    have hn := hnum.resolve_left (by omega)
    have hden := Nat.mul_le_mul_left den hp
    exact iff_of_true (by omega) (by nlinarith)

/-- A rounded magnitude below the overflow threshold is a finite value, written with an even significand where the rounding
picked an even number of spacings (30_encoding.md R65). -/
theorem steps_normal_form (num den : Nat) (hd : 0 < den)
    (hfin : F64.steps num den * 2 ^ F64.spacing num den < F64.tooLarge) :
    ∃ m e, m < 2 ^ 53 ∧ e ≤ 2045 ∧ (e = 0 ∨ 2 ^ 52 ≤ m) ∧ (F64.steps num den % 2 = 0 → m % 2 = 0) ∧
      F64.steps num den * 2 ^ F64.spacing num den = m * 2 ^ e := by
  have hle := steps_le num den hd
  have hge := le_steps num den hd
  have hpow := two_pow_topSpacing (F64.spacing num den)
  rw [tooLarge_eq] at hfin
  generalize F64.topSpacing = top at *
  generalize F64.steps num den = q at *
  generalize F64.spacing num den = sp at *
  rcases Nat.lt_or_eq_of_le hle with hq | rfl
  · refine ⟨q, sp, hq, ?_, hge, id, rfl⟩
    by_contra! hs
    have := Nat.mul_le_mul (hge.resolve_left (by omega)) (show 2 * top ≤ 2 ^ sp by omega)
    omega
  · exact ⟨2 ^ 52, sp + 1, by decide, by omega, .inr le_rfl, fun _ => by decide, by ring⟩

/-- A representable value is a whole number of spacings, or has a finer scale and lies below 2^52 of them. -/
theorem representable_on_grid_or_below {k : Nat} (hk : F64.Representable k) (sp : Nat) :
    (∃ j, k = j * 2 ^ sp) ∨ (0 < sp ∧ k < 2 ^ 52 * 2 ^ sp) := by
  obtain ⟨m, e, hm, -, rfl⟩ := hk
  rcases le_or_gt sp e with he | he
  · obtain ⟨x, rfl⟩ := Nat.exists_eq_add_of_le he
    exact .inl ⟨m * 2 ^ x, by ring⟩
  · refine .inr ⟨by omega, ?_⟩
    calc m * 2 ^ e < 2 ^ 53 * 2 ^ e := Nat.mul_lt_mul_of_pos_right hm (Nat.two_pow_pos e)
      _ = 2 ^ 52 * 2 ^ (e + 1) := by ring
      _ ≤ 2 ^ 52 * 2 ^ sp := Nat.mul_le_mul_left _ (Nat.pow_le_pow_right (by decide) he)

/-- The rounding is to the nearest representable value. One on the grid of the spacing is a grid point; one of a finer scale
lies below 2^52 spacings, a grid point that is no nearer than the one picked. -/
theorem steps_nearest (num den k : Nat) (hd : 0 < den) (hk : F64.Representable k)
    (hne : k ≠ F64.steps num den * 2 ^ F64.spacing num den) :
    ((num : Int) - (F64.steps num den * 2 ^ F64.spacing num den : Nat) * den).natAbs < ((num : Int) - k * den).natAbs ∨
    (((num : Int) - (F64.steps num den * 2 ^ F64.spacing num den : Nat) * den).natAbs = ((num : Int) - k * den).natAbs ∧
      F64.steps num den % 2 = 0) := by
  have hD : 0 < den * 2 ^ F64.spacing num den := by positivity
  have hgrid (j : Nat) := roundNearestEven_nearest num (den * 2 ^ F64.spacing num den) j hD
  obtain ⟨-, hnum⟩ := spacing_spec num den hd
  have hplace := representable_on_grid_or_below hk (F64.spacing num den)
  have hmul (j : Nat) : (j : Int) * (den * 2 ^ F64.spacing num den : Nat) = (j * 2 ^ F64.spacing num den : Nat) * den := by
    push_cast; ring
  rw [← F64.steps] at hgrid
  simp only [hmul] at hgrid
  generalize F64.steps num den = q at *
  generalize F64.spacing num den = sp at *
  rcases hplace with ⟨j, rfl⟩ | ⟨hsp, hfine⟩
  · exact hgrid j fun h => hne (by rw [h])
  · have hn : 2 ^ 52 * (den * 2 ^ sp) ≤ num := hnum.resolve_left hsp.ne'
    have hfar := Nat.mul_lt_mul_of_pos_right hfine hd
    have hcoarse : ((num : Int) - (q * 2 ^ sp : Nat) * den).natAbs ≤ ((num : Int) - (2 ^ 52 * 2 ^ sp : Nat) * den).natAbs := by
      by_cases h : 2 ^ 52 = q
      · rw [h]
      · exact (hgrid _ h).elim le_of_lt fun h => h.1.le
    rw [← mul_assoc, mul_right_comm] at hn
    simp only [← Nat.cast_mul] at hcoarse ⊢
    generalize 2 ^ 52 * 2 ^ sp * den = low at *
    exact .inl (by omega)

/-- Settles O33: `round_eq` with the overflow threshold, then the picked value's form and that no other is nearer. -/
theorem roundingIsNearestEven : Obligations.RoundingIsNearestEven := by
  unfold Obligations.RoundingIsNearestEven
  intro neg num den hd
  rw [round_eq, ← tooLarge_le_steps_iff num den hd]
  rcases le_or_gt F64.tooLarge (F64.steps num den * 2 ^ F64.spacing num den) with hbig | hfin
  · exact ⟨by simp [hbig], .inl hbig⟩
  · obtain ⟨m, e, hm, he, hnorm, heven, hmag⟩ := steps_normal_form num den hd hfin
    rw [if_neg hfin.not_ge]
    refine ⟨by simp [hfin], .inr ⟨_, rfl, ⟨m, e, hm, he, hmag⟩, fun k hk hne => ?_⟩⟩
    exact (steps_nearest num den k hd hk hne).imp_right fun ⟨htie, hq⟩ => ⟨htie, m, e, heven hq, hm, hnorm, hmag⟩

end Sys2Proof.Machine
end

section
/-! PROOFS. 10_state.md: everything a command can do, which registers it writes, the state invariant (R26, R33, R34), the capacity of the
last BEGIN_FRAME (R33), and the output pins. -/

namespace Sys2Proof.Machine

/-! ### Everything a command can do -/

/-- The occupancy that a successful END_FRAME leaves: parity fix, clamp and alignment together (42_end_frame.md R121 to R123). -/
def State.trimmedOcc (s : State) (ch : Channels) (m : BitVec 16) : Int := floor8 (min (s.occInt + parityBit ch m) s.capInt)

/-- The stuffing budget that a successful END_FRAME distributes (42_end_frame.md R123). -/
def State.stuffingBudget (s : State) (ch : Channels) (m : BitVec 16) : Int := s.occInt + parityBit ch m - s.trimmedOcc ch m

/-- `Committed s i t`: the command `i` takes the registers of `s` to those of `t`, with the response of `t` on offer. One constructor per
outcome of a command: the rejection in FAULT, a fault raised, and the success of each of the four (60_exceptions.md R146, R147). -/
inductive Committed (s : State) : Instr → State → Prop where
  | rejected (i : Instr) (hphase : s.phase = .fault) : Committed s i (reject i.opcode s)
  | raised (i : Instr) (c : FaultCode) (hphase : s.phase ≠ .fault) (hcode : c ≠ .none) : Committed s i (raiseFault c i.opcode s)
  | beginFrame (ver : Version) (m fl ro : BitVec 16) (hphase : s.phase = .frameStart ∨ s.phase = .frameDone) (hro : zext ro = s.occInt) :
      Committed s (.beginFrame ver m fl ro) (respond .beginFrame 0#112 ((s.setCap (capacity ver fl)).setPhase .granuleLoop))
  | maxBits (ch : Channels) (m : BitVec 16) (pe : BitVec 64) (hphase : s.phase = .granuleLoop) :
      Committed s (.maxBits ch m pe) (respond .maxBits (allowedPayload (allowedBits s.params s.occInt s.capInt ch m pe)) s)
  | adjust (ch : Channels) (m : BitVec 16) (cl : BitVec 12) (hphase : s.phase = .granuleLoop)
      (hfits : fitsOcc (adjusted s.occInt ch m cl) = true) :
      Committed s (.adjust ch m cl) (respond .adjust 0#112 (s.setOcc (adjusted s.occInt ch m cl)))
  | endFrame (ver : Version) (ch : Channels) (m : BitVec 16) (slots : Slots) (hphase : s.phase = .granuleLoop) :
      Committed s (.endFrame ver ch m slots)
        (respond .endFrame
          (slotsPayload (distribute ver ch slots (s.stuffingBudget ch m)).1 (distribute ver ch slots (s.stuffingBudget ch m)).2)
          ((s.setOcc (s.trimmedOcc ch m)).setPhase .frameDone))

theorem legal_beginFrame_iff (p : Phase) : legal p .beginFrame = true ↔ p = .frameStart ∨ p = .frameDone := by
  cases p <;> simp [legal]

theorem legal_granule_iff (p : Phase) {op : Opcode} (hop : op ≠ .beginFrame) : legal p op = true ↔ p = .granuleLoop := by
  cases op with
  | beginFrame => exact absurd rfl hop
  | maxBits | adjust | endFrame => cases p <;> simp [legal]

theorem legal_ne_fault {p : Phase} {op : Opcode} (h : legal p op = true) : p ≠ .fault := by
  rintro rfl
  simp [legal] at h

theorem endFrameBody_eq (ver : Version) (ch : Channels) (m : BitVec 16) (slots : Slots) (s : State) :
    endFrameBody ver ch m slots s =
      respond .endFrame
        (slotsPayload (distribute ver ch slots (s.stuffingBudget ch m)).1 (distribute ver ch slots (s.stuffingBudget ch m)).2)
        ((s.setOcc (s.trimmedOcc ch m)).setPhase .frameDone) := by
  simp only [endFrameBody, clampAlign_eq]
  rfl

/-- A body that is a command's outcome where its phase is admitted makes the guarded command an outcome everywhere. -/
theorem committed_guarded {i : Instr} {body : State → State} {s : State}
    (h : legal s.phase i.opcode = true → Committed s i (body s)) : Committed s i (guarded i.opcode body s) := by
  rcases guarded_cases i.opcode body s with ⟨hp, hg⟩ | ⟨_, hl, hg⟩ | ⟨hp, _, hg⟩ <;> rw [hg]
  · exact .rejected i hp
  · exact h hl
  · exact .raised i .seq hp (by decide)

theorem committed_commit (i : Instr) (s : State) : Committed s i (commit i s) := by
  cases i with
  | beginFrame ver m fl ro =>
    refine committed_guarded (i := .beginFrame ver m fl ro) fun hl => ?_
    rcases beginFrameBody_cases ver fl ro s with ⟨hro, hb⟩ | ⟨_, hb⟩ <;> rw [hb]
    · exact .beginFrame ver m fl ro ((legal_beginFrame_iff _).mp hl) hro
    · exact .raised _ .desync (legal_ne_fault hl) (by decide)
  | maxBits ch m pe =>
    exact committed_guarded (i := .maxBits ch m pe) fun hl => .maxBits ch m pe ((legal_granule_iff _ (by simp [Instr.opcode])).mp hl)
  | adjust ch m cl =>
    refine committed_guarded (i := .adjust ch m cl) fun hl => ?_
    rcases adjustBody_cases ch m cl s with ⟨hfits, hb⟩ | ⟨_, hb⟩ <;> rw [hb]
    · exact .adjust ch m cl ((legal_granule_iff _ (by simp [Instr.opcode])).mp hl) hfits
    · exact .raised _ .ovf (legal_ne_fault hl) (by decide)
  | endFrame ver ch m slots =>
    refine committed_guarded (i := .endFrame ver ch m slots) fun hl => ?_
    rw [endFrameBody_eq]
    exact .endFrame ver ch m slots ((legal_granule_iff _ (by simp [Instr.opcode])).mp hl)

theorem committed_of_exec {i : Instr} {s t : State} (h : exec i s = .next t) : Committed s i t := by
  have ht : commit i s = t := Host.Outcome.next.inj ((exec_eq_next_commit i s).symm.trans h)
  exact ht ▸ committed_commit i s

/-! ### What a command writes and leaves (R23, R25, R28) -/

section
variable {i : Instr} {s t : State}

theorem Committed.pins_eq (h : Committed s i t) : t.pins = s.pins := by cases h <;> rfl

theorem Committed.delays_eq (h : Committed s i t) : t.delays = s.delays := by cases h <;> rfl

theorem Committed.params_eq (h : Committed s i t) : t.params = s.params := by cases h <;> rfl

/-- A command either is a BEGIN_FRAME that succeeds, which PHASE shows after it, or leaves CAP as it is. -/
theorem Committed.cap_cases (h : Committed s i t) :
    (∃ ver m fl ro, i = .beginFrame ver m fl ro ∧ t.phase = .granuleLoop ∧ t.cap = enc 12 (capacity ver fl)) ∨
    ((i.opcode = .beginFrame → t.phase ≠ .granuleLoop) ∧ t.cap = s.cap) := by
  cases h with
  | rejected _ hphase => exact .inr ⟨fun _ => by simp [hphase], rfl⟩
  | raised => exact .inr ⟨fun _ => by simp, rfl⟩
  | beginFrame ver m fl ro => exact .inl ⟨ver, m, fl, ro, rfl, rfl, rfl⟩
  | maxBits | adjust | endFrame => exact .inr ⟨fun hop => by simp [Instr.opcode] at hop, rfl⟩

theorem Committed.occ_eq (h : Committed s i t) (hadj : i.opcode ≠ .adjust) (hend : i.opcode ≠ .endFrame) : t.occ = s.occ := by
  cases h with
  | rejected | raised | beginFrame | maxBits => rfl
  | adjust => exact absurd rfl hadj
  | endFrame => exact absurd rfl hend

theorem Committed.phase_of_fault_ne (h : Committed s i t) (hne : t.fault ≠ s.fault) : t.phase = .fault := by
  cases h with
  | raised => rfl
  | rejected | beginFrame | maxBits | adjust | endFrame => exact absurd rfl hne

end

/-- Settles O22: each clause is one frame lemma of `Committed`. -/
theorem commandsWriteOnlyTheirRegisters : Obligations.CommandsWriteOnlyTheirRegisters := by
  unfold Obligations.CommandsWriteOnlyTheirRegisters
  intro i s t hexec
  have h := committed_of_exec hexec
  refine ⟨h.pins_eq, h.delays_eq, h.params_eq, fun hcap => ?_, fun hocc => ?_, h.phase_of_fault_ne⟩
  · rcases h.cap_cases with ⟨ver, m, fl, ro, rfl, _⟩ | ⟨_, hkept⟩
    · rfl
    · exact absurd hkept hcap
  · by_contra hop
    rw [not_or] at hop
    exact hocc (h.occ_eq hop.1 hop.2)

/-! ### The capacity and the occupancy as integers -/

theorem capacity_eq (ver : Version) (fl : BitVec 16) : capacity ver fl = min (resvLimit ver) (max 0 (7680 - zext fl)) := by
  unfold capacity Config.twoFrameCeil
  dsimp only
  split <;> omega

theorem capacity_range (ver : Version) (fl : BitVec 16) : 0 ≤ capacity ver fl ∧ capacity ver fl ≤ 4088 := by
  rw [capacity_eq]
  cases ver <;> simp only [resvLimit] <;> omega

theorem zext_enc_capacity (ver : Version) (fl : BitVec 16) : zext (enc 12 (capacity ver fl)) = capacity ver fl := by
  obtain ⟨h0, h1⟩ := capacity_range ver fl
  exact zext_enc h0 (by omega)

theorem parityBit_eq (ch : Channels) (m : BitVec 16) :
    parityBit ch m = if ch = .stereo ∧ m.toNat % 2 = 1 then 1 else 0 := by
  have hodd : odd (zext m) = true ↔ m.toNat % 2 = 1 := by
    rw [odd, decide_eq_true_iff, zext]
    omega
  simp [parityBit, hodd]

theorem parityBit_range (ch : Channels) (m : BitVec 16) : 0 ≤ parityBit ch m ∧ parityBit ch m ≤ 1 := by
  unfold parityBit
  split <;> decide

theorem trimmedOcc_le_cap (s : State) (ch : Channels) (m : BitVec 16) : s.trimmedOcc ch m ≤ s.capInt :=
  (floor8_le _).trans (min_le_right _ _)

theorem trimmedOcc_aligned (s : State) (ch : Channels) (m : BitVec 16) : s.trimmedOcc ch m % 8 = 0 := floor8_mod _

theorem trimmedOcc_nonneg {s : State} {ch : Channels} {m : BitVec 16} (h : 0 ≤ s.occInt + parityBit ch m) :
    0 ≤ s.trimmedOcc ch m := by
  have hcap : 0 ≤ s.capInt := zext_nonneg s.cap
  unfold State.trimmedOcc floor8
  omega

/-- OCC holds the trimmed occupancy: CAP bounds it above, and the least OCC is itself a multiple of 8. -/
theorem sext_enc_trimmedOcc (s : State) (ch : Channels) (m : BitVec 16) :
    sext (enc 32 (s.trimmedOcc ch m)) = s.trimmedOcc ch m := by
  have hocc : -2 ^ 31 ≤ s.occInt := (sext_range s.occ).1
  have hpar := (parityBit_range ch m).1
  have hcap0 : 0 ≤ s.capInt := zext_nonneg s.cap
  have hcap : s.capInt < 2 ^ 12 := zext_lt s.cap
  refine sext_enc ?_ ?_
  · unfold State.trimmedOcc floor8
    omega
  · have := trimmedOcc_le_cap s ch m
    omega

/-- Settles O39: the new OCC is `State.trimmedOcc`, whose three properties are the three clauses. -/
theorem endFrameLeavesAlignedOccupancy : Obligations.EndFrameLeavesAlignedOccupancy := by
  unfold Obligations.EndFrameLeavesAlignedOccupancy
  intro ver ch m slots s hphase
  have hcommit : commit (.endFrame ver ch m slots) s = endFrameBody ver ch m slots s :=
    guarded_of_legal (by rw [hphase]; rfl)
  have hocc : sext (commit (.endFrame ver ch m slots) s).occ = s.trimmedOcc ch m := by
    rw [hcommit, endFrameBody_eq]
    exact sext_enc_trimmedOcc s ch m
  have hcap : zext (commit (.endFrame ver ch m slots) s).cap = s.capInt := by
    rw [hcommit, endFrameBody_eq]
    rfl
  unfold sext at hocc
  unfold zext at hcap
  refine ⟨_, exec_eq_next_commit _ s, ?_⟩
  rw [hocc, hcap, ← parityBit_eq]
  exact ⟨trimmedOcc_le_cap s ch m, trimmedOcc_aligned s ch m, trimmedOcc_nonneg⟩

/-! ### The state invariant -/

/-- The form that `State.Inv.offer_form` asks of a response on offer while FAULT is `c` (30_encoding.md R70). -/
def OfferForm (c : FaultCode) (rw : ResponseWord) : Prop :=
  rwSt rw = c.code ∧ rwZeroLow rw = 0#11 ∧ rwZeroHigh rw = 0#32 ∧ (rwSt rw ≠ 0#2 → rwPayload rw = 0#112)

theorem offerForm_responseWord {c : FaultCode} {b : Bool} {op : Opcode} {x : BitVec 112}
    (hzero : rwZeroHigh (responseWord c b op x) = 0#32) (hresults : c ≠ .none → x = 0#112) :
    OfferForm c (responseWord c b op x) := by
  obtain ⟨hst, _, _, hlow, hpayload⟩ := responseWord_fields c b op x
  refine ⟨hst, hlow, hzero, fun hne => hpayload.trans (hresults ?_)⟩
  rintro rfl
  exact hne hst

namespace State.Inv
variable {s t : State}

theorem fault_none (hs : s.Inv) (hphase : s.phase ≠ .fault) : s.fault = .none := by
  by_contra hne
  exact hphase (hs.fault_iff.mp hne)

/-- The invariant speaks of the registers, the setting and the response on offer alone. -/
theorem of_same_registers (hs : s.Inv) (hocc : t.occ = s.occ) (hcap : t.cap = s.cap) (hphase : t.phase = s.phase)
    (hfault : t.fault = s.fault) (hparams : t.params = s.params)
    (hoffer : ∀ rw, t.port = .responding rw → OfferForm t.fault rw) : t.Inv where
  fault_iff := by rw [hfault, hphase]; exact hs.fault_iff
  cap_le := by rw [capInt_of_cap hcap]; exact hs.cap_le
  start_zero := by rw [hphase, occInt_of_occ hocc, capInt_of_cap hcap]; exact hs.start_zero
  done_aligned := by rw [hphase, occInt_of_occ hocc, capInt_of_cap hcap]; exact hs.done_aligned
  offer_form := hoffer
  params_legal := hparams ▸ hs.params_legal

theorem dropPins (hs : s.Inv) : s.dropPins.Inv := hs.of_same_registers rfl rfl rfl rfl rfl hs.offer_form

/-- The registers stay and nothing is on offer afterwards. -/
theorem setPort (hs : s.Inv) {p : Port} (hp : ∀ rw, p ≠ .responding rw) : { s with port := p }.Inv :=
  hs.of_same_registers rfl rfl rfl rfl rfl fun rw h => absurd h (hp rw)

theorem acceptEdge (hs : s.Inv) (cw : CommandWord) : (acceptEdge cw s).Inv :=
  hs.of_same_registers rfl rfl rfl rfl rfl fun _ h => by simp at h

theorem reject (hs : s.Inv) (op : Opcode) : (reject op s).Inv := by
  refine hs.of_same_registers rfl rfl rfl rfl rfl fun rw h => ?_
  cases h
  exact offerForm_responseWord (rwZeroHigh_responseWord _ _ _).1 fun _ => rfl

theorem respond (hs : s.Inv) (hphase : s.phase ≠ .fault) {op : Opcode} {x : BitVec 112}
    (hzero : rwZeroHigh (responseWord .none false op x) = 0#32) : (respond op x s).Inv := by
  refine hs.of_same_registers rfl rfl rfl rfl rfl fun rw h => ?_
  cases h
  rw [respond_fault, hs.fault_none hphase]
  exact offerForm_responseWord hzero fun hne => absurd rfl hne

theorem raiseFault (hs : s.Inv) {c : FaultCode} (hcode : c ≠ .none) (op : Opcode) : (raiseFault c op s).Inv where
  fault_iff := by simp [hcode]
  cap_le := hs.cap_le
  start_zero h := by simp at h
  done_aligned h := by simp at h
  offer_form rw h := by
    cases h
    exact offerForm_responseWord (rwZeroHigh_responseWord _ _ _).1 fun _ => rfl
  params_legal := hs.params_legal

/-- What BEGIN_FRAME writes keeps the invariant: the new CAP is a capacity. -/
theorem setCap_granuleLoop (hs : s.Inv) (hphase : s.phase ≠ .fault) (ver : Version) (fl : BitVec 16) :
    ((s.setCap (capacity ver fl)).setPhase .granuleLoop).Inv where
  fault_iff := by simp [hs.fault_none hphase]
  cap_le := (zext_enc_capacity ver fl).le.trans (capacity_range ver fl).2
  start_zero h := by simp at h
  done_aligned h := by simp at h
  offer_form := hs.offer_form
  params_legal := hs.params_legal

/-- In GRANULE_LOOP the invariant leaves OCC free. -/
theorem setOcc_of_granuleLoop (hs : s.Inv) (hphase : s.phase = .granuleLoop) (v : Int) : (s.setOcc v).Inv where
  fault_iff := hs.fault_iff
  cap_le := hs.cap_le
  start_zero h := by simp [hphase] at h
  done_aligned h := by simp [hphase] at h
  offer_form := hs.offer_form
  params_legal := hs.params_legal

/-- What END_FRAME writes keeps the invariant: the trimmed occupancy is aligned and within CAP. -/
theorem setOcc_frameDone (hs : s.Inv) (hphase : s.phase ≠ .fault) (ch : Channels) (m : BitVec 16) :
    ((s.setOcc (s.trimmedOcc ch m)).setPhase .frameDone).Inv where
  fault_iff := by simp [hs.fault_none hphase]
  cap_le := hs.cap_le
  start_zero h := by simp at h
  done_aligned _ := by
    show sext (enc 32 (s.trimmedOcc ch m)) ≤ s.capInt ∧ sext (enc 32 (s.trimmedOcc ch m)) % 8 = 0
    rw [sext_enc_trimmedOcc]
    exact ⟨trimmedOcc_le_cap s ch m, trimmedOcc_aligned s ch m⟩
  offer_form := hs.offer_form
  params_legal := hs.params_legal

theorem committed (hs : s.Inv) {i : Instr} (h : Committed s i t) : t.Inv := by
  cases h with
  | rejected i => exact hs.reject i.opcode
  | raised i c _ hcode => exact hs.raiseFault hcode i.opcode
  | beginFrame ver m fl ro hphase =>
    have hne : s.phase ≠ .fault := by rcases hphase with h | h <;> simp [h]
    exact (hs.setCap_granuleLoop hne ver fl).respond (by simp) (rwZeroHigh_responseWord _ _ _).1
  | maxBits ch m pe hphase => exact hs.respond (by simp [hphase]) ((rwZeroHigh_responseWord _ _ _).2.1 _)
  | adjust ch m cl hphase =>
    exact (hs.setOcc_of_granuleLoop hphase _).respond (by simp [hphase]) (rwZeroHigh_responseWord _ _ _).1
  | endFrame ver ch m slots hphase =>
    exact (hs.setOcc_frameDone (by simp [hphase]) ch m).respond (by simp) ((rwZeroHigh_responseWord _ _ _).2.2 _ _)

end State.Inv

/-- A reset edge makes the invariant hold, whatever the registers held (70_reset_and_hazards.md R170, R171). -/
theorem inv_resetEdge {s : State} (hlegal : s.params.Legal) : (resetEdge s).Inv where
  fault_iff := by simp
  cap_le := by simp [State.capInt, zext]
  start_zero _ := by simp [State.occInt, State.capInt, zext, sext]
  done_aligned h := by simp at h
  offer_form _ h := by simp at h
  params_legal := hlegal

theorem legal_default_params : Config.params.Legal := by
  constructor <;> decide

/-- Settles O44: `State.reset` is what a reset edge leaves of itself. -/
theorem invariantHoldsAtReset : Obligations.InvariantHoldsAtReset :=
  inv_resetEdge (s := State.reset) legal_default_params

/-- Settles O45: a reset edge makes the invariant hold, a due command keeps it by `State.Inv.committed`, and the other edges keep the
registers. -/
theorem everyStepKeepsInvariant : Obligations.EveryStepKeepsInvariant := by
  unfold Obligations.EveryStepKeepsInvariant
  intro s t hs h
  have hd : s.dropPins.Inv := hs.dropPins
  rcases step_cases h with ⟨_, rfl⟩ | ⟨cw, _, _, rfl⟩ | ⟨_, _, _, rfl⟩ | ⟨cw, n, _, _, rfl⟩ | ⟨rw, _, _, _, rfl⟩ | ⟨_, rfl, _⟩
  · exact inv_resetEdge hs.params_legal
  · exact hd.committed (committed_commit _ _)
  · exact hd.acceptEdge _
  · exact hd.setPort (by simp)
  · exact hd.setPort (by simp)
  · exact hd

/-! ### The capacity of the last BEGIN_FRAME (R33) -/

theorem capacityIs_none_iff {s : State} : CapacityIs none s ↔ s.capInt = 0 := Iff.rfl

theorem capacityIs_some_iff {ver : Version} {fl : BitVec 16} {s : State} :
    CapacityIs (some (ver, fl)) s ↔ s.capInt = capacity ver fl := by
  rw [capacity_eq]
  cases ver <;> rfl

theorem capacityIs_congr {s t : State} {g : Option (Version × BitVec 16)} (hcap : t.cap = s.cap) (h : CapacityIs g s) :
    CapacityIs g t := by
  unfold CapacityIs at h ⊢
  rwa [hcap]

theorem CapacityIs.cap_le {s : State} {g : Option (Version × BitVec 16)} (h : CapacityIs g s) : s.cap.toNat ≤ 4088 := by
  suffices s.capInt ≤ 4088 from Int.ofNat_le.mp this
  match g with
  | none =>
    rw [capacityIs_none_iff.mp h]
    decide
  | some (ver, fl) =>
    rw [capacityIs_some_iff.mp h]
    exact (capacity_range ver fl).2

section
variable {s t : State} {g : Option (Version × BitVec 16)} {cw : CommandWord}

theorem begun_of_rst (hrst : s.nextPins.rst = true) : begun s t g = none := by simp [begun, hrst]

theorem begun_of_not_due (hrst : s.nextPins.rst = false) (hdue : dueCommand s = none) : begun s t g = g := by
  simp [begun, hrst, hdue]

theorem begun_of_success (hdue : dueCommand s = some cw) {ver : Version} {m fl ro : BitVec 16}
    (hi : decode cw = .beginFrame ver m fl ro) (ht : t.phase = .granuleLoop) : begun s t g = some (ver, fl) := by
  simp [begun, (dueCommand_eq_some.mp hdue).2, hdue, hi, ht]

theorem begun_of_no_success (hdue : dueCommand s = some cw)
    (h : (decode cw).opcode = .beginFrame → t.phase ≠ .granuleLoop) : begun s t g = g := by
  cases hi : decode cw with
  | beginFrame ver m fl ro =>
    have ht : t.phase ≠ .granuleLoop := h (by rw [hi]; rfl)
    simp [begun, (dueCommand_eq_some.mp hdue).2, hdue, hi, ht]
  | maxBits | adjust | endFrame => simp [begun, (dueCommand_eq_some.mp hdue).2, hdue, hi]

/-- The edge at which a command is due keeps CAP that of the last successful BEGIN_FRAME. -/
theorem CapacityIs.committed (h : CapacityIs g s) (hdue : dueCommand s = some cw) (hc : Committed s.dropPins (decode cw) t) :
    CapacityIs (begun s t g) t := by
  rcases hc.cap_cases with ⟨ver, m, fl, ro, hi, hphase, hcap⟩ | ⟨hno, hcap⟩
  · rw [begun_of_success hdue hi hphase, capacityIs_some_iff, State.capInt, hcap]
    exact zext_enc_capacity ver fl
  · rw [begun_of_no_success hdue hno]
    exact capacityIs_congr hcap h

/-- An edge with neither a reset nor a due command passes CAP and what `begun` has kept on. -/
theorem CapacityIs.not_due (h : CapacityIs g s) (hrst : s.nextPins.rst = false) (hport : ∀ cw, s.port ≠ .executing cw 0)
    (hcap : t.cap = s.cap) : CapacityIs (begun s t g) t := by
  have hdue : dueCommand s = none := Option.eq_none_iff_forall_ne_some.mpr fun cw hd => hport cw (dueCommand_eq_some.mp hd).1
  rw [begun_of_not_due hrst hdue]
  exact capacityIs_congr hcap h

theorem CapacityIs.step (h : CapacityIs g s) (hstep : step s = .next t) : CapacityIs (begun s t g) t := by
  rcases step_cases hstep with ⟨hrst, rfl⟩ | ⟨cw, hrst, hport, rfl⟩ | ⟨hrst, hport, _, rfl⟩ | ⟨cw, n, hrst, hport, rfl⟩ |
    ⟨rw, hrst, hport, _, rfl⟩ | ⟨hrst, rfl, ⟨hport, _⟩ | ⟨rw, hport, _⟩⟩
  · rw [begun_of_rst hrst]
    rfl
  · exact h.committed (dueCommand_eq_some.mpr ⟨hport, hrst⟩) (committed_commit _ _)
  all_goals exact h.not_due hrst (by simp [hport]) rfl

end

theorem capacityIs_of_reset_edge {s t : State} (hrst : s.nextPins.rst = true) (hstep : step s = .next t) : CapacityIs none t := by
  rw [step, dueCommand_of_rst hrst] at hstep
  cases hstep
  simp [otherEdge, hrst, CapacityIs]

/-- Settles O47: the reset edge gives the base, and `CapacityIs.step` every edge. -/
theorem capacityFollowsLastBeginFrame : Obligations.CapacityFollowsLastBeginFrame := by
  unfold Obligations.CapacityFollowsLastBeginFrame
  exact ⟨fun _ _ => capacityIs_of_reset_edge, fun _ _ _ h hstep => ⟨h.step hstep, (h.step hstep).cap_le⟩⟩

/-- Settles O52, by induction on the edges since the reset. -/
theorem capacityInReachableStates : Obligations.CapacityInReachableStates := by
  unfold Obligations.CapacityInReachableStates
  intro g s hreach
  have h : CapacityIs g s := by
    induction hreach with
    | reset s t hrst hstep => exact capacityIs_of_reset_edge hrst hstep
    | edge g s t _ hstep ih => exact ih.step hstep
  exact ⟨h, h.cap_le⟩

/-! ### The output pins -/

theorem offered_eq_some {s : State} {rw : ResponseWord} : offered s = some rw ↔ s.port = .responding rw := by
  unfold offered
  cases s.port <;> simp

theorem cmdReady_iff (rst : Bool) (s : State) : cmdReady rst s = true ↔ rst = false ∧ s.port = .idle := by simp [cmdReady]

/-- Settles O49: the registers are on the status port as they stand, and the ports show `offered` and `cmdReady`. -/
theorem outputsShowRegisters : Obligations.OutputsShowRegisters := by
  unfold Obligations.OutputsShowRegisters
  intro rst s
  refine ⟨rfl, rfl, ?_, ?_, ?_, ?_, fun _ => offered_eq_some, cmdReady_iff rst s⟩
  · cases h : s.phase <;> simp [outputs, Phase.code, h]
  · cases h : s.fault <;> simp [outputs, FaultCode.code, h]
  · simp [outputs]
  · simp [outputs, Option.isSome_iff_exists, offered_eq_some]

end Sys2Proof.Machine
end

section
/-! PROOFS. 20_memory.md: when the status port changes (R47), and sessions on the ports against the commands executed in order (R46). -/

namespace Sys2Proof.Machine

/-! ### The status port -/

/-- Settles O12: of the edges without reset only the due one writes registers, and `commit_port` gives it its response. -/
theorem statusChangesAtResponseOrReset : Obligations.StatusChangesAtResponseOrReset := by
  unfold Obligations.StatusChangesAtResponseOrReset
  intro s t hstep hrst
  rcases step_cases hstep with ⟨hrst', _⟩ | ⟨cw, _, hport, rfl⟩ | ⟨_, _, _, rfl⟩ | ⟨cw, n, _, _, rfl⟩ | ⟨rw, _, _, _, rfl⟩ | ⟨_, rfl, _⟩
  · exact absurd hrst' (by simp [hrst])
  · obtain ⟨rw, hoffer⟩ := commit_port (decode cw) s.dropPins
    exact .inr ⟨cw, hport, by simp [offered, hport], by simp [offered, hoffer], exec_eq_next_commit _ _⟩
  · exact .inl ⟨rfl, rfl, rfl, rfl, .inr rfl⟩
  · exact .inl ⟨rfl, rfl, rfl, rfl, .inr rfl⟩
  · exact .inl ⟨rfl, rfl, rfl, rfl, .inr rfl⟩
  · exact .inl ⟨rfl, rfl, rfl, rfl, .inl rfl⟩

/-! ### What pin samples do -/

/-- The pin samples `ps` take the block from `s` to `t`, the responses taken on the way being `rws`, whatever samples come after them.
The samples that `s` and `t` themselves list play no part. -/
def Plays (ps : List Pins) (s t : State) (rws : List ResponseWord) : Prop :=
  ∀ rest, core.run ps.length { s with pins := ps ++ rest } = .next { t with pins := rest } ∧
    observe ps.length { s with pins := ps ++ rest } = rws

theorem step_total (s : State) : ∃ t, step s = .next t := by
  unfold step
  cases dueCommand s with
  | none => exact ⟨_, rfl⟩
  | some cw => exact ⟨_, exec_eq_next_commit _ _⟩

theorem observe_succ (n : Nat) {s t : State} (h : step s = .next t) : observe (n + 1) s = takenNow s ++ observe n t := by
  simp only [observe, h]

/-- Observations compose as runs do. -/
theorem observe_add (n m : Nat) {s t : State} (h : core.run n s = .next t) : observe (n + m) s = observe n s ++ observe m t := by
  induction n generalizing s with
  | zero =>
    cases h
    simp [observe]
  | succ n ih =>
    obtain ⟨u, hu⟩ := step_total s
    rw [run_succ n hu] at h
    rw [show n + 1 + m = (n + m) + 1 by omega, observe_succ _ hu, observe_succ _ hu, ih h, List.append_assoc]

section
variable {p : Pins} {ps qs : List Pins} {s t u : State} {rws rws' : List ResponseWord} {cw : CommandWord}

theorem Plays.nil : Plays [] s s [] := fun _ => ⟨rfl, rfl⟩

theorem Plays.append (h : Plays ps s t rws) (h' : Plays qs t u rws') : Plays (ps ++ qs) s u (rws ++ rws') := by
  intro rest
  obtain ⟨hrun, hobs⟩ := h (qs ++ rest)
  obtain ⟨hrun', hobs'⟩ := h' rest
  rw [List.length_append, List.append_assoc, run_add _ _ hrun, observe_add _ _ hrun, hobs, hobs']
  exact ⟨hrun', rfl⟩

/-- Samples each of which does nothing do nothing together. -/
theorem Plays.all_unchanged (h : ∀ p ∈ ps, Plays [p] s s []) : Plays ps s s [] := by
  induction ps with
  | nil => exact .nil
  | cons p ps ih =>
    rw [List.forall_mem_cons] at h
    exact h.1.append (ih h.2)

/-- One sample, from what its edge does and takes. -/
theorem Plays.edge (hstep : ∀ rest, step { s with pins := p :: rest } = .next { t with pins := rest })
    (htaken : takenNow { s with pins := [p] } = rws) : Plays [p] s t rws := by
  intro rest
  refine ⟨run_succ 0 (hstep rest), ?_⟩
  rw [List.length_singleton, List.singleton_append, observe_succ 0 (hstep rest)]
  exact (List.append_nil _).trans htaken

/-! ### What each kind of edge does -/

theorem otherEdge_with_pins (p : Pins) (s : State) (ps : List Pins) :
    otherEdge p { s with pins := ps } = { otherEdge p s with pins := ps } := by
  unfold otherEdge
  split
  · rfl
  · dsimp only
    split
    · split <;> rfl
    · rfl
    · split <;> rfl

/-- An edge at which no command is due. -/
theorem plays_otherEdge (hport : ∀ cw, s.port ≠ .executing cw 0) (ht : otherEdge p s = t)
    (htaken : takenNow { s with pins := [p] } = rws) : Plays [p] s t rws := by
  refine .edge (fun rest => ?_) htaken
  have hdue : dueCommand { s with pins := p :: rest } = none :=
    Option.eq_none_iff_forall_ne_some.mpr fun cw hd => hport cw (dueCommand_eq_some.mp hd).1
  rw [step, hdue, ← ht, ← otherEdge_with_pins]
  rfl

theorem plays_idle (hrst : p.rst = false) (hport : s.port = .idle) (hvalid : p.cmdValid = false) : Plays [p] s s [] :=
  plays_otherEdge (by simp [hport]) (by simp [otherEdge, hrst, hport, hvalid]) (by simp [takenNow, offered, hport])

theorem plays_accept (hrst : p.rst = false) (hport : s.port = .idle) (hvalid : p.cmdValid = true) :
    Plays [p] s (acceptEdge p.cmdData s) [] :=
  plays_otherEdge (by simp [hport]) (by simp [otherEdge, hrst, hport, hvalid]) (by simp [takenNow, offered, hport])

theorem plays_wait (hrst : p.rst = false) {n : Nat} (hport : s.port = .executing cw (n + 1)) :
    Plays [p] s { s with port := .executing cw n } [] :=
  plays_otherEdge (by simp [hport]) (by simp [otherEdge, hrst, hport]) (by simp [takenNow, offered, hport])

theorem plays_hold (hrst : p.rst = false) {rw : ResponseWord} (hport : s.port = .responding rw) (hready : p.rspReady = false) :
    Plays [p] s s [] :=
  plays_otherEdge (by simp [hport]) (by simp [otherEdge, hrst, hport, hready])
    (by simp [takenNow, State.nextPins, hready])

theorem plays_take (hrst : p.rst = false) {rw : ResponseWord} (hport : s.port = .responding rw) (hready : p.rspReady = true) :
    Plays [p] s { s with port := .idle } [rw] :=
  plays_otherEdge (by simp [hport]) (by simp [otherEdge, hrst, hport, hready])
    (by simp [takenNow, State.nextPins, offered, hrst, hport, hready])

/-- What a command does to the rest of the state does not depend on the samples still to come. -/
theorem commit_with_pins (i : Instr) (s : State) (ps : List Pins) :
    commit i { s with pins := ps } = { commit i s with pins := ps } := by
  have hdelays : (commit i s).delays = s.delays := (committed_commit i s).delays_eq
  rw [commit_congr i (s := s) (t := { s with pins := ps }) rfl rfl rfl rfl rfl, ← hdelays]

/-- Nor does it depend on the port's content or on the latencies of later commands. -/
theorem commit_with_port_delays (i : Instr) (s : State) (q : Port) (ds : List Nat) :
    commit i { s with port := q, delays := ds } = { commit i s with delays := ds } := by
  have hpins : (commit i s).pins = s.pins := (committed_commit i s).pins_eq
  rw [commit_congr i (s := s) (t := { s with port := q, delays := ds }) rfl rfl rfl rfl rfl, ← hpins]

theorem plays_due (hrst : p.rst = false) (hport : s.port = .executing cw 0) : Plays [p] s (commit (decode cw) s) [] := by
  refine .edge (fun rest => ?_) (by simp [takenNow, offered, hport])
  have hdue : dueCommand { s with pins := p :: rest } = some cw := dueCommand_eq_some.mpr ⟨hport, hrst⟩
  rw [step, hdue, ← commit_with_pins]
  exact exec_eq_next_commit _ _

/-! ### Transactions and sessions -/

/-- The samples of a wait, one for each edge of the latency before the last. -/
theorem plays_latency (hrst : ∀ p ∈ ps, p.rst = false) (hport : s.port = .executing cw ps.length) :
    Plays ps s { s with port := .executing cw 0 } [] := by
  induction ps generalizing s with
  | nil =>
    rw [List.length_nil] at hport
    rw [← hport]
    exact .nil
  | cons p ps ih =>
    rw [List.forall_mem_cons] at hrst
    exact (plays_wait hrst.1 hport).append (ih hrst.2 rfl)

end

/-- A transaction on an idle block executes its command and takes the response. -/
theorem Transaction.Proper.plays {t : Transaction} (h : t.Proper) {s : State} (hport : s.port = .idle) (ds : List Nat) :
    Plays t.samples { s with delays := t.wait.length :: ds }
      { commit (decode t.accept.cmdData) s with port := .idle, delays := ds } (answer (decode t.accept.cmdData) s).toList := by
  obtain ⟨hrst, hgap, haccept, hhold, htake⟩ := h
  simp only [Transaction.samples, List.forall_mem_append, List.forall_mem_singleton] at hrst
  obtain ⟨⟨⟨⟨⟨hrstGap, hrstAccept⟩, hrstWait⟩, hrstDue⟩, hrstHold⟩, hrstTake⟩ := hrst
  obtain ⟨rw, hoffer⟩ := commit_port (decode t.accept.cmdData) s
  have hanswer : answer (decode t.accept.cmdData) s = some rw := offered_eq_some.mpr hoffer
  have gap : Plays t.gap { s with delays := t.wait.length :: ds } { s with delays := t.wait.length :: ds } [] :=
    .all_unchanged fun p hp => plays_idle (hrstGap p hp) hport (hgap p hp)
  have accept : Plays [t.accept] { s with delays := t.wait.length :: ds }
      { s with port := .executing t.accept.cmdData t.wait.length, delays := ds } [] := plays_accept hrstAccept hport haccept
  have wait : Plays t.wait { s with port := .executing t.accept.cmdData t.wait.length, delays := ds }
      { s with port := .executing t.accept.cmdData 0, delays := ds } [] := plays_latency hrstWait rfl
  have due : Plays [t.due] { s with port := .executing t.accept.cmdData 0, delays := ds }
      { commit (decode t.accept.cmdData) s with delays := ds } [] := by
    have h := plays_due (s := { s with port := .executing t.accept.cmdData 0, delays := ds }) hrstDue rfl
    rwa [commit_with_port_delays] at h
  have hold : Plays t.hold { commit (decode t.accept.cmdData) s with delays := ds }
      { commit (decode t.accept.cmdData) s with delays := ds } [] :=
    .all_unchanged fun p hp => plays_hold (hrstHold p hp) hoffer (hhold p hp)
  have take : Plays [t.take] { commit (decode t.accept.cmdData) s with delays := ds }
      { commit (decode t.accept.cmdData) s with port := .idle, delays := ds } [rw] := plays_take hrstTake hoffer htake
  rw [hanswer]
  exact ((((gap.append accept).append wait).append due).append hold).append take

/-- A session plays as its commands do one after another: induction on the transactions, each starting where the one before it
left the block idle. -/
theorem plays_session {ts : List Transaction} (hproper : ∀ t ∈ ts, t.Proper) {s : State} (hport : s.port = .idle) (ds : List Nat) :
    Plays (sessionPins ts) { s with delays := sessionDelays ts ++ ds } { afterCommands (sessionWords ts) s with delays := ds }
      (responses (sessionWords ts) s) := by
  induction ts generalizing s with
  | nil => exact .nil
  | cons t ts ih =>
    rw [List.forall_mem_cons] at hproper
    have rest := ih hproper.2 (s := { commit (decode t.accept.cmdData) s with port := .idle }) rfl
    exact (hproper.1.plays hport _).append rest

/-- Settles O14: the session's samples, played from the state that lists them with the latencies of its commands. -/
theorem sessionRefinesExecute : Obligations.SessionRefinesExecute := by
  unfold Obligations.SessionRefinesExecute
  intro ts s pins delays hproper hport hpins hdelays
  have h := plays_session hproper hport delays pins
  rwa [← hpins, ← hdelays] at h

end Sys2Proof.Machine
end

section
/-! PROOFS. 30_encoding.md: the decoder and the encoder (R59 to R69), the assembler (R74), and the edges of the ports (R56 to R58, R170). -/

namespace Sys2Proof.Machine

/-! ### The decoder by opcode (R59, R60) -/

section
variable {cw : CommandWord}

theorem decode_opcode (cw : CommandWord) : (decode cw).opcode = Opcode.ofCode (cw.field 0 2) := by
  unfold decode
  dsimp only
  cases Opcode.ofCode (cw.field 0 2) <;> rfl

theorem decode_of_beginFrame (hop : Opcode.ofCode (cw.field 0 2) = .beginFrame) :
    decode cw = .beginFrame (.ofBit (cw.getLsbD 2)) (cw.field 8 16) (cw.field 24 16) (cw.field 40 16) := by
  simp only [decode, hop]

theorem decode_of_maxBits (hop : Opcode.ofCode (cw.field 0 2) = .maxBits) :
    decode cw = .maxBits (.ofBit (cw.getLsbD 3)) (cw.field 8 16) (cw.field 64 64) := by
  simp only [decode, hop]

theorem decode_of_adjust (hop : Opcode.ofCode (cw.field 0 2) = .adjust) :
    decode cw = .adjust (.ofBit (cw.getLsbD 3)) (cw.field 8 16) (cw.field 24 12) := by
  simp only [decode, hop]

theorem decode_of_endFrame (hop : Opcode.ofCode (cw.field 0 2) = .endFrame) :
    decode cw = .endFrame (.ofBit (cw.getLsbD 2)) (.ofBit (cw.getLsbD 3)) (cw.field 8 16)
      ⟨cw.field 24 12, cw.field 36 12, cw.field 48 12, cw.field 60 12⟩ := by
  simp only [decode, hop]

end

/-! ### Decoding what was encoded (R69) -/

theorem ofCode_field_encodeWord (x : BitVec 104) (m : BitVec 16) (c v : BitVec 1) (op : Opcode) :
    Opcode.ofCode (CommandWord.field (encodeWord x m c v op) 0 2) = op := by
  rw [(encodeWord_fields x m c v op).1, opcode_ofCode_code]

theorem extract_append_self {n m : Nat} (a : BitVec n) (b : BitVec m) : (a ++ b).extractLsb' 0 m = b :=
  (extract_append_low a b (by omega)).trans (extract_all b)

/-- The vector of slots read back from the bits that hold it, slot 0 the lowest (R67). -/
theorem extract_slots {n : Nat} (x : BitVec n) (t : Slots) :
    Slots.mk ((x ++ t.s3 ++ t.s2 ++ t.s1 ++ t.s0).extractLsb' 0 12) ((x ++ t.s3 ++ t.s2 ++ t.s1 ++ t.s0).extractLsb' 12 12)
      ((x ++ t.s3 ++ t.s2 ++ t.s1 ++ t.s0).extractLsb' 24 12) ((x ++ t.s3 ++ t.s2 ++ t.s1 ++ t.s0).extractLsb' 36 12) = t := by
  rw [extract_append_self, extract_append_high _ t.s0 (start := 12) (by decide), extract_append_self,
    extract_append_high _ t.s0 (start := 24) (by decide), extract_append_high _ t.s1 (by decide), extract_append_self,
    extract_append_high _ t.s0 (start := 36) (by decide), extract_append_high _ t.s1 (by decide),
    extract_append_high _ t.s2 (by decide), extract_append_self]

theorem decode_encode_beginFrame (ver : Version) (m fl ro : BitVec 16) :
    decode (encode (.beginFrame ver m fl ro)) = .beginFrame ver m fl ro := by
  obtain ⟨-, hm, hver, -, hpay⟩ := encodeWord_fields (0#72 ++ ro ++ fl) m 0#1 ver.bit .beginFrame
  rw [encode, decode_of_beginFrame (ofCode_field_encodeWord _ _ _ _ _), hm, hver, hpay 24 16 (by decide), hpay 40 16 (by decide),
    version_ofBit_bit]
  exact congrArg₂ (Instr.beginFrame ver m) (extract_append_self (0#72 ++ ro) fl)
    ((extract_append_high (0#72 ++ ro) fl (start := 16) (by decide)).trans (extract_append_self 0#72 ro))

theorem decode_encode_maxBits (ch : Channels) (m : BitVec 16) (pe : BitVec 64) :
    decode (encode (.maxBits ch m pe)) = .maxBits ch m pe := by
  obtain ⟨-, hm, -, hch, hpay⟩ := encodeWord_fields (pe ++ 0#40) m ch.bit 0#1 .maxBits
  rw [encode, decode_of_maxBits (ofCode_field_encodeWord _ _ _ _ _), hm, hch, hpay 64 64 (by decide), channels_ofBit_bit]
  exact congrArg (Instr.maxBits ch m) ((extract_append_high pe 0#40 (start := 40) (by decide)).trans (extract_all pe))

theorem decode_encode_adjust (ch : Channels) (m : BitVec 16) (cl : BitVec 12) :
    decode (encode (.adjust ch m cl)) = .adjust ch m cl := by
  obtain ⟨-, hm, -, hch, hpay⟩ := encodeWord_fields (0#92 ++ cl) m ch.bit 0#1 .adjust
  rw [encode, decode_of_adjust (ofCode_field_encodeWord _ _ _ _ _), hm, hch, hpay 24 12 (by decide), channels_ofBit_bit]
  exact congrArg (Instr.adjust ch m) (extract_append_self 0#92 cl)

theorem decode_encode_endFrame (ver : Version) (ch : Channels) (m : BitVec 16) (t : Slots) :
    decode (encode (.endFrame ver ch m t)) = .endFrame ver ch m t := by
  obtain ⟨-, hm, hver, hch, hpay⟩ :=
    encodeWord_fields (0#56 ++ t.s3 ++ t.s2 ++ t.s1 ++ t.s0) m ch.bit ver.bit .endFrame
  rw [encode, decode_of_endFrame (ofCode_field_encodeWord _ _ _ _ _), hm, hver, hch, hpay 24 12 (by decide),
    hpay 36 12 (by decide), hpay 48 12 (by decide), hpay 60 12 (by decide), version_ofBit_bit, channels_ofBit_bit]
  exact congrArg (Instr.endFrame ver ch m) (extract_slots 0#56 t)

@[simp] theorem decode_encode (i : Instr) : decode (encode i) = i := by
  cases i with
  | beginFrame ver m fl ro => exact decode_encode_beginFrame ver m fl ro
  | maxBits ch m pe => exact decode_encode_maxBits ch m pe
  | adjust ch m cl => exact decode_encode_adjust ch m cl
  | endFrame ver ch m t => exact decode_encode_endFrame ver ch m t

/-- Settles O1: one lemma for each command. -/
theorem decodeEncodeRoundTrip : Obligations.DecodeEncodeRoundTrip := by
  unfold Obligations.DecodeEncodeRoundTrip
  exact decode_encode

/-- Settles O4: `decode` by the OP that each code selects. -/
theorem opcodeSelectsCommand : Obligations.OpcodeSelectsCommand := by
  unfold Obligations.OpcodeSelectsCommand
  intro cw
  refine ⟨fun h => ?_, fun h => ?_, fun h => ?_, fun h => ?_⟩
  · exact ⟨_, _, _, _, decode_of_beginFrame (congrArg Opcode.ofCode h)⟩
  · exact ⟨_, _, _, decode_of_maxBits (congrArg Opcode.ofCode h)⟩
  · exact ⟨_, _, _, decode_of_adjust (congrArg Opcode.ofCode h)⟩
  · exact ⟨_, _, _, _, decode_of_endFrame (congrArg Opcode.ofCode h)⟩

/-- Settles O5: the decoder runs on the four words. -/
theorem specWordsDecode : Obligations.SpecWordsDecode := by
  unfold Obligations.SpecWordsDecode
  decide

/-! ### The ignored bits (R59, R68) -/

section
variable (cw : CommandWord)

theorem field_one (i : Nat) : cw.field i 1 = BitVec.ofBool (cw.getLsbD i) := by
  ext j hj
  obtain rfl : j = 0 := by omega
  simp [CommandWord.field]

theorem version_bit_ofBit : (Version.ofBit (cw.getLsbD 2)).bit = cw.field 2 1 := by
  rw [field_one]
  cases cw.getLsbD 2 <;> rfl

theorem channels_bit_ofBit : (Channels.ofBit (cw.getLsbD 3)).bit = cw.field 3 1 := by
  rw [field_one]
  cases cw.getLsbD 3 <;> rfl

theorem code_ofCode (c : BitVec 2) : (Opcode.ofCode c).code = c := by
  revert c
  decide

/-- Two fields that meet are one. -/
theorem field_append_field {lo mid len len' : Nat} (h : mid = lo + len) :
    cw.field mid len' ++ cw.field lo len = cw.field lo (len' + len) :=
  BitVec.extractLsb'_append_extractLsb'_eq_extractLsb' h

/-- A word is its payload, M, CW[7:4], CH, VER and OP. -/
theorem word_eq_fields :
    cw = cw.field 24 104 ++ cw.field 8 16 ++ cw.field 4 4 ++ cw.field 3 1 ++ cw.field 2 1 ++ cw.field 0 2 := by
  rw [field_append_field cw (mid := 24) (len := 16) rfl, field_append_field cw (mid := 8) (len := 4) rfl,
    field_append_field cw (mid := 4) (len := 1) rfl, field_append_field cw (mid := 3) (len := 1) rfl,
    field_append_field cw (mid := 2) (len := 2) rfl]
  exact (extract_all cw).symm

/-- A word masked by fields of the layout: CW[7:4] is cleared, and OP stays where the mask holds the code of END_FRAME, all ones. -/
theorem and_encodeWord (x : BitVec 104) (m : BitVec 16) (c v : BitVec 1) :
    cw &&& encodeWord x m c v .endFrame =
      encodeWord (cw.field 24 104 &&& x) (cw.field 8 16 &&& m) (cw.field 3 1 &&& c) (cw.field 2 1 &&& v)
        (Opcode.ofCode (cw.field 0 2)) := by
  have hop : cw.field 0 2 &&& Opcode.endFrame.code = cw.field 0 2 := BitVec.and_allOnes
  calc cw &&& encodeWord x m c v .endFrame
      = (cw.field 24 104 ++ cw.field 8 16 ++ cw.field 4 4 ++ cw.field 3 1 ++ cw.field 2 1 ++ cw.field 0 2) &&&
          (x ++ m ++ 0#4 ++ c ++ v ++ Opcode.endFrame.code) := congrArg (· &&& _) (word_eq_fields cw)
    _ = _ := by
      rw [BitVec.and_append, BitVec.and_append, BitVec.and_append, BitVec.and_append, BitVec.and_append, BitVec.and_zero, hop,
        encodeWord, code_ofCode]

end

/-- The command without the operand that R59 marks ignored: the M of a BEGIN_FRAME, as 0. -/
def dropIgnored : Instr → Instr
  | .beginFrame ver _ fl ro => .beginFrame ver 0#16 fl ro
  | .maxBits ch m pe => .maxBits ch m pe
  | .adjust ch m cl => .adjust ch m cl
  | .endFrame ver ch m t => .endFrame ver ch m t

theorem dropIgnored_of_ne {i : Instr} (h : i.opcode ≠ .beginFrame) : dropIgnored i = i := by
  cases i with
  | beginFrame => exact absurd rfl h
  | maxBits | adjust | endFrame => rfl

/-- No command reads it (R68). -/
theorem exec_dropIgnored (i : Instr) (s : State) : exec (dropIgnored i) s = exec i s := by
  cases i <;> rfl

section
variable {cw : CommandWord}

/-- The fields of a BEGIN_FRAME word, M masked by `k`. -/
theorem and_beginFrame (hop : Opcode.ofCode (cw.field 0 2) = .beginFrame) (k : BitVec 16) :
    cw &&& encodeWord (0#72 ++ BitVec.allOnes 16 ++ BitVec.allOnes 16) k 0#1 (BitVec.allOnes 1) .endFrame =
      encode (.beginFrame (.ofBit (cw.getLsbD 2)) (cw.field 8 16 &&& k) (cw.field 24 16) (cw.field 40 16)) := by
  have hpay : cw.field 24 104 = cw.field 56 72 ++ cw.field 40 16 ++ cw.field 24 16 := by
    rw [field_append_field cw (mid := 56) (len := 16) rfl, field_append_field cw (mid := 40) (len := 16) rfl]
  rw [and_encodeWord, hop, hpay, BitVec.and_append, BitVec.and_append, encode, version_bit_ofBit]
  simp only [BitVec.and_zero, BitVec.and_allOnes]

theorem and_maxBits (hop : Opcode.ofCode (cw.field 0 2) = .maxBits) :
    cw &&& encodeWord (BitVec.allOnes 64 ++ 0#40) (BitVec.allOnes 16) (BitVec.allOnes 1) 0#1 .endFrame =
      encode (.maxBits (.ofBit (cw.getLsbD 3)) (cw.field 8 16) (cw.field 64 64)) := by
  have hpay : cw.field 24 104 = cw.field 64 64 ++ cw.field 24 40 := by
    rw [field_append_field cw (mid := 64) (len := 40) rfl]
  rw [and_encodeWord, hop, hpay, BitVec.and_append, encode, channels_bit_ofBit]
  simp only [BitVec.and_zero, BitVec.and_allOnes]

theorem and_adjust (hop : Opcode.ofCode (cw.field 0 2) = .adjust) :
    cw &&& encodeWord (0#92 ++ BitVec.allOnes 12) (BitVec.allOnes 16) (BitVec.allOnes 1) 0#1 .endFrame =
      encode (.adjust (.ofBit (cw.getLsbD 3)) (cw.field 8 16) (cw.field 24 12)) := by
  have hpay : cw.field 24 104 = cw.field 36 92 ++ cw.field 24 12 := by
    rw [field_append_field cw (mid := 36) (len := 12) rfl]
  rw [and_encodeWord, hop, hpay, BitVec.and_append, encode, channels_bit_ofBit]
  simp only [BitVec.and_zero, BitVec.and_allOnes]

theorem and_endFrame (hop : Opcode.ofCode (cw.field 0 2) = .endFrame) :
    cw &&& encodeWord (0#56 ++ BitVec.allOnes 12 ++ BitVec.allOnes 12 ++ BitVec.allOnes 12 ++ BitVec.allOnes 12) (BitVec.allOnes 16)
        (BitVec.allOnes 1) (BitVec.allOnes 1) .endFrame =
      encode (.endFrame (.ofBit (cw.getLsbD 2)) (.ofBit (cw.getLsbD 3)) (cw.field 8 16)
        ⟨cw.field 24 12, cw.field 36 12, cw.field 48 12, cw.field 60 12⟩) := by
  have hpay : cw.field 24 104 = cw.field 72 56 ++ cw.field 60 12 ++ cw.field 48 12 ++ cw.field 36 12 ++ cw.field 24 12 := by
    rw [field_append_field cw (mid := 72) (len := 12) rfl, field_append_field cw (mid := 60) (len := 12) rfl,
      field_append_field cw (mid := 48) (len := 12) rfl, field_append_field cw (mid := 36) (len := 12) rfl]
  rw [and_encodeWord, hop, hpay, BitVec.and_append, BitVec.and_append, BitVec.and_append, BitVec.and_append, encode,
    version_bit_ofBit, channels_bit_ofBit]
  simp only [BitVec.and_zero, BitVec.and_allOnes]

end

/-- The bits of a word that are not marked ignored are the encoding of its command without the ignored operand. -/
theorem and_usedBits (cw : CommandWord) : cw &&& usedBits (decode cw).opcode = encode (dropIgnored (decode cw)) := by
  cases hop : Opcode.ofCode (cw.field 0 2) with
  | beginFrame =>
    rw [decode_of_beginFrame hop]
    exact (and_beginFrame hop 0#16).trans (by rw [BitVec.and_zero]; rfl)
  | maxBits =>
    rw [decode_of_maxBits hop]
    exact and_maxBits hop
  | adjust =>
    rw [decode_of_adjust hop]
    exact and_adjust hop
  | endFrame =>
    rw [decode_of_endFrame hop]
    exact and_endFrame hop

/-- Settles O2: `and_usedBits`, and for a BEGIN_FRAME `and_beginFrame` with M kept. -/
theorem encodeDecodeClearsIgnoredBits : Obligations.EncodeDecodeClearsIgnoredBits := by
  unfold Obligations.EncodeDecodeClearsIgnoredBits
  intro cw
  split
  case isTrue h =>
    rw [decode_opcode] at h
    rw [decode_of_beginFrame h]
    exact ((and_beginFrame h (BitVec.allOnes 16)).trans (by rw [BitVec.and_allOnes])).symm
  case isFalse h => rw [and_usedBits, dropIgnored_of_ne h]

/-! ### An assembled line (R74) -/

theorem asmInstr_opcode (op : Opcode) (fields : List AsmField) : (asmInstr op fields).opcode = op := by
  cases op <;> rfl

theorem assemble_command_eq_some {op : Opcode} {fields : List AsmField} {cw : CommandWord} :
    assemble (.command op fields) = some (.word cw) ↔
      (AsmLine.command op fields).wellFormed = true ∧ cw = encode (asmInstr op fields) := by
  unfold assemble
  split
  · rename_i hwf
    simp [hwf, eq_comm]
  · rename_i hwf
    simp [hwf]

theorem number_key {f : AsmField} {k : AsmKey} {n : Nat} (h : AsmField.number k f = some n) : f.key = k := by
  cases f <;> simp_all [AsmField.number, AsmField.key]

theorem asmNumber_of_not_mem {k : AsmKey} {fields : List AsmField} (h : k ∉ fields.map AsmField.key) (w : Nat) :
    asmNumber k fields w = 0#w := by
  have hnone : fields.findSome? (AsmField.number k) = none := by
    rw [List.findSome?_eq_none_iff]
    intro f hf
    by_contra hne
    obtain ⟨n, hn⟩ := Option.ne_none_iff_exists'.mp hne
    exact h (List.mem_map.mpr ⟨f, hf, number_key hn⟩)
  simp [asmNumber, hnone]

/-- The M of a line that omits it reads 0, so nothing ignored is left to drop. -/
theorem dropIgnored_asmInstr {op : Opcode} {fields : List AsmField} (h : ¬(op = .beginFrame ∧ AsmKey.mean ∈ fields.map AsmField.key)) :
    dropIgnored (asmInstr op fields) = asmInstr op fields := by
  by_cases hop : op = .beginFrame
  · subst hop
    rw [asmInstr, asmNumber_of_not_mem fun hmean => h ⟨rfl, hmean⟩]
    rfl
  · exact dropIgnored_of_ne (by rwa [asmInstr_opcode])

theorem and_not_of_eq_and {n : Nat} {x k : BitVec n} (h : x = x &&& k) : x &&& ~~~k = 0#n := by
  calc x &&& ~~~k = x &&& k &&& ~~~k := by rw [← h]
    _ = 0#n := by rw [BitVec.and_assoc, BitVec.and_not_self]; exact BitVec.and_zero

/-- Settles O3: two such words have the same `dropIgnored`, on which `exec` depends alone; an assembled word is what `and_usedBits`
leaves of it, or with M written what O2 does. -/
theorem ignoredBitsHaveNoEffect : Obligations.IgnoredBitsHaveNoEffect := by
  unfold Obligations.IgnoredBitsHaveNoEffect
  refine ⟨fun cw cw' hop hbits s => ?_, fun op fields cw hline => and_not_of_eq_and ?_⟩
  · have hbits' : encode (dropIgnored (decode cw)) = encode (dropIgnored (decode cw')) := by
      rw [← and_usedBits, ← and_usedBits, hbits, hop]
    have hsame : dropIgnored (decode cw) = dropIgnored (decode cw') := by
      rw [← decode_encode (dropIgnored (decode cw)), hbits', decode_encode]
    rw [← exec_dropIgnored, hsame, exec_dropIgnored]
  · obtain ⟨-, rfl⟩ := assemble_command_eq_some.mp hline
    split
    case isTrue h =>
      have hkept := encodeDecodeClearsIgnoredBits (encode (asmInstr op fields))
      simp only [decode_encode, asmInstr_opcode, h.1, if_true] at hkept
      simpa only [h.1] using hkept
    case isFalse h =>
      have hused := and_usedBits (encode (asmInstr op fields))
      rw [decode_encode, asmInstr_opcode, dropIgnored_asmInstr h] at hused
      rw [BitVec.or_zero, hused]

/-! ### The operands of a line: what its field of a kind says, and the default where it is omitted (R74) -/

/-- A function that reads a line's first field named `k`, on a line all of whose fields of that name are `x`. -/
theorem read_eq {β : Type} {read : List AsmField → β} {k : AsmKey} {x : AsmField} {default value : β} {fields : List AsmField}
    (hnil : read [] = default) (hhit : ∀ rest, read (x :: rest) = value)
    (hskip : ∀ f rest, f.key ≠ k → read (f :: rest) = read rest) (honly : ∀ f ∈ fields, f.key = k → f = x) (hkey : x.key = k) :
    read fields = if x ∈ fields then value else default := by
  induction fields with
  | nil => simpa using hnil
  | cons f rest ih =>
    rw [List.forall_mem_cons] at honly
    by_cases hf : f.key = k
    · rw [honly.1 hf, hhit, if_pos List.mem_cons_self]
    · have hne : x ≠ f := fun h => hf (h ▸ hkey)
      rw [hskip f rest hf, ih honly.2]
      simp only [List.mem_cons, hne, false_or]

section
variable {op : Opcode} {fields full : List AsmField}

/-- A line keeps well formed when fields are left out or put in another order. -/
theorem wellFormed_of_subperm (hsub : fields.Subperm full) (hfull : (AsmLine.command op full).wellFormed = true) :
    (AsmLine.command op fields).wellFormed = true := by
  simp only [AsmLine.wellFormed, Bool.and_eq_true, List.all_eq_true, decide_eq_true_eq] at hfull ⊢
  obtain ⟨l, hperm, hsublist⟩ := id hsub
  exact ⟨fun f hf => hfull.1 f (hsub.subset hf), (hperm.map AsmField.key).nodup_iff.mp (hfull.2.sublist (hsublist.map _))⟩

/-- So such a line is assembled, to a word that decodes to the command its fields give. -/
theorem assemble_of_subperm (hsub : fields.Subperm full) (hfull : (AsmLine.command op full).wellFormed = true) :
    ∃ cw, assemble (.command op fields) = some (.word cw) ∧ decode cw = asmInstr op fields :=
  ⟨_, assemble_command_eq_some.mpr ⟨wellFormed_of_subperm hsub hfull, rfl⟩, decode_encode _⟩

/-- A name stands for one field of the full line. -/
theorem eq_of_key_eq (hsub : fields.Subperm full) (hfull : (AsmLine.command op full).wellFormed = true) {x : AsmField}
    (hx : x ∈ full) : ∀ f ∈ fields, f.key = x.key → f = x := by
  simp only [AsmLine.wellFormed, Bool.and_eq_true, decide_eq_true_eq] at hfull
  exact fun f hf => List.inj_on_of_nodup_map hfull.2 (hsub.subset hf) hx

variable (hsub : fields.Subperm full) (hfull : (AsmLine.command op full).wellFormed = true)
include hsub hfull

theorem asmVersion_eq {ver : Version} (hx : .version ver ∈ full) :
    asmVersion fields = if .version ver ∈ fields then ver else .v1 :=
  read_eq rfl (fun _ => rfl) (fun f _ hf => by cases f with | version => exact absurd rfl hf | _ => rfl) (eq_of_key_eq hsub hfull hx) rfl

theorem asmChannels_eq {ch : Channels} (hx : .ch (channelCount ch) ∈ full) :
    asmChannels fields = if .ch (channelCount ch) ∈ fields then ch else .mono :=
  read_eq rfl (fun _ => by cases ch <;> rfl) (fun f _ hf => by cases f with | ch => exact absurd rfl hf | _ => rfl)
    (eq_of_key_eq hsub hfull hx) rfl

theorem asmPe_eq {p : PeLiteral} (hx : .pe p ∈ full) : asmPe fields = if .pe p ∈ fields then peBits p else 0#64 :=
  read_eq rfl (fun _ => rfl) (fun f _ hf => by cases f with | pe => exact absurd rfl hf | _ => rfl) (eq_of_key_eq hsub hfull hx) rfl

theorem asmSlots_eq {a b c d : Nat} (hx : .slots a b c d ∈ full) :
    asmSlots fields = if .slots a b c d ∈ fields then ⟨BitVec.ofNat 12 a, BitVec.ofNat 12 b, BitVec.ofNat 12 c, BitVec.ofNat 12 d⟩
      else ⟨0#12, 0#12, 0#12, 0#12⟩ :=
  read_eq rfl (fun _ => rfl) (fun f _ hf => by cases f with | slots => exact absurd rfl hf | _ => rfl) (eq_of_key_eq hsub hfull hx) rfl

theorem asmNumber_toNat {k : AsmKey} {x : AsmField} {n w : Nat} (hx : x ∈ full) (hn : AsmField.number k x = some n) (hw : n < 2 ^ w) :
    (asmNumber k fields w).toNat = if x ∈ fields then n else 0 := by
  refine read_eq (read := fun l => (asmNumber k l w).toNat) ?_ (fun rest => ?_) (fun f rest hf => ?_)
    (number_key hn ▸ eq_of_key_eq hsub hfull hx) (number_key hn)
  · simp [asmNumber]
  · simp [asmNumber, hn, Nat.mod_eq_of_lt hw]
  · have hnone : AsmField.number k f = none := Option.eq_none_iff_forall_ne_some.mpr fun m hm => hf (number_key hm)
    simp [asmNumber, hnone]

end

/-! ### Decimal `pe` literals -/

theorem log2_sub_of_normal {m e : Nat} (hm : m < 2 ^ 53) (hnorm : e = 0 ∨ 2 ^ 52 ≤ m) : Nat.log2 (m * 2 ^ e) - 52 = e := by
  by_cases h0 : m = 0
  · subst h0
    have he : e = 0 := by omega
    subst he
    decide
  have hlt : (m * 2 ^ e).log2 < 53 + e := (Nat.log2_lt (Nat.mul_ne_zero h0 (Nat.two_pow_pos e).ne')).mpr (by
    rw [pow_add]
    exact Nat.mul_lt_mul_of_pos_right hm (Nat.two_pow_pos e))
  rcases hnorm with rfl | hge
  · omega
  · have hle : 52 + e ≤ (m * 2 ^ e).log2 := (Nat.le_log2 (Nat.mul_ne_zero h0 (Nat.two_pow_pos e).ne')).mpr (by
      rw [pow_add]
      exact Nat.mul_le_mul_right _ hge)
    omega

/-- The fields of the pattern of a finite value with significand `m`: the sum carries the 53rd bit of `m` into the exponent field. -/
theorem toBits_finite_fields (neg : Bool) {m e : Nat} (hm : m < 2 ^ 53) (he : e ≤ 2045) (hnorm : e = 0 ∨ 2 ^ 52 ≤ m) :
    (F64.toBits (.finite neg (m * 2 ^ e))).getLsbD 63 = neg ∧
    ((F64.toBits (.finite neg (m * 2 ^ e))).extractLsb' 52 11).toNat = e + m / 2 ^ 52 ∧
    ((F64.toBits (.finite neg (m * 2 ^ e))).extractLsb' 0 52).toNat = m % 2 ^ 52 := by
  have hbits : F64.toBits (.finite neg (m * 2 ^ e)) = BitVec.ofBool neg ++ BitVec.ofNat 63 (e * 2 ^ 52 + m) := by
    simp only [F64.toBits, log2_sub_of_normal hm hnorm, Nat.mul_div_cancel m (Nat.two_pow_pos e)]
  rw [hbits]
  refine ⟨?_, ?_, ?_⟩
  · rw [BitVec.getLsbD_append]
    simp
  · rw [extract_append_low _ _ (by decide), BitVec.extractLsb'_toNat, BitVec.toNat_ofNat, Nat.shiftRight_eq_div_pow]
    omega
  · rw [extract_append_low _ _ (by decide), BitVec.extractLsb'_toNat, BitVec.toNat_ofNat, Nat.shiftRight_zero]
    omega

/-- The pattern of a finite value denotes it: its exponent field is `e + 1`, or 0 where the significand has no 53rd bit (R65). -/
theorem denotes_toBits (neg : Bool) {m e : Nat} (hm : m < 2 ^ 53) (he : e ≤ 2045) (hnorm : e = 0 ∨ 2 ^ 52 ≤ m) :
    F64.Denotes (F64.toBits (.finite neg (m * 2 ^ e))) neg (m * 2 ^ e) := by
  obtain ⟨hsign, hexp, hfrac⟩ := toBits_finite_fields neg hm he hnorm
  have hcode (c : BitVec 11) : (F64.toBits (.finite neg (m * 2 ^ e))).extractLsb' 52 11 = c ↔ e + m / 2 ^ 52 = c.toNat := by
    rw [← BitVec.toNat_inj, hexp]
  simp only [F64.Denotes, hsign, hexp, hfrac, ne_eq, hcode, show (0x7FF#11).toNat = 2047 from rfl, show (0#11).toNat = 0 from rfl]
  refine ⟨by omega, trivial, ?_⟩
  rcases lt_or_ge m (2 ^ 52) with hsub | hnormal
  · obtain rfl : e = 0 := by omega
    rw [if_pos (by omega), Nat.mod_eq_of_lt hsub, pow_zero, mul_one]
  · rw [if_neg (by omega), show 2 ^ 52 + m % 2 ^ 52 = m by omega, show e + m / 2 ^ 52 - 1 = e by omega]

/-- Reading the pattern of a rounded value gives the value. -/
theorem ofBits_toBits_round (neg : Bool) (num den : Nat) (hd : 0 < den) :
    F64.ofBits (F64.toBits (F64.round neg num den)) = F64.round neg num den := by
  rw [round_eq]
  split
  · cases neg <;> rfl
  · rename_i hfin
    obtain ⟨m, e, hm, he, hnorm, -, hmag⟩ := steps_normal_form num den hd (not_le.mp hfin)
    rw [hmag]
    exact ofBits_of_denotes (denotes_toBits neg hm he hnorm)

theorem ofBits_peBits_decimal (neg : Bool) (digits : Nat) (exp10 : Int) :
    F64.ofBits (peBits (.decimal neg digits exp10)) =
      F64.round neg (digits * 10 ^ exp10.toNat * F64.one) (10 ^ (-exp10).toNat) := by
  rw [peBits, decimalValue, ofBits_toBits_round _ _ _ (by positivity)]

/-- Settles O6: for each mnemonic the line with all its fields is well formed, so a line with some of them is assembled and each
operand is read from its own field. -/
theorem assemblerLinesDecode : Obligations.AssemblerLinesDecode := by
  unfold Obligations.AssemblerLinesDecode
  refine ⟨?_, ?_, ?_, ?_, ?_⟩
  · intro ver fl ro mean hfl hro hmean fields hsub
    have hfull : (AsmLine.command .beginFrame [.version ver, .fl fl, .ro ro, .mean mean]).wellFormed = true := by
      simp [AsmLine.wellFormed, AsmField.inRange, asmKeys, AsmField.key, hfl, hro, hmean]
    obtain ⟨cw, hline, hdec⟩ := assemble_of_subperm hsub hfull
    exact ⟨cw, hline, _, _, _, _, hdec, asmVersion_eq hsub hfull (by simp), asmNumber_toNat hsub hfull (by simp) rfl (by omega),
      asmNumber_toNat hsub hfull (by simp) rfl (by omega), asmNumber_toNat hsub hfull (by simp) rfl (by omega)⟩
  · intro ch mean pe hmean hpe fields hsub
    have hfull : (AsmLine.command .maxBits [.ch (channelCount ch), .mean mean, .pe (.bits pe)]).wellFormed = true := by
      cases ch <;> simpa [AsmLine.wellFormed, AsmField.inRange, asmKeys, AsmField.key, channelCount, hmean] using hpe
    obtain ⟨cw, hline, hdec⟩ := assemble_of_subperm hsub hfull
    refine ⟨cw, hline, _, _, _, hdec, asmChannels_eq hsub hfull (by simp), asmNumber_toNat hsub hfull (by simp) rfl (by omega), ?_⟩
    rw [asmPe_eq hsub hfull (p := .bits pe) (by simp)]
    split
    · exact (BitVec.toNat_ofNat pe 64).trans (Nat.mod_eq_of_lt hpe)
    · rfl
  · intro ch mean neg digits exp10 hmean fields hsub hmem
    have hfull : (AsmLine.command .maxBits [.ch (channelCount ch), .mean mean, .pe (.decimal neg digits exp10)]).wellFormed = true := by
      cases ch <;> simp [AsmLine.wellFormed, AsmField.inRange, asmKeys, AsmField.key, channelCount, hmean]
    obtain ⟨cw, hline, hdec⟩ := assemble_of_subperm hsub hfull
    refine ⟨cw, hline, _, _, _, hdec, asmChannels_eq hsub hfull (by simp), asmNumber_toNat hsub hfull (by simp) rfl (by omega), ?_⟩
    rw [asmPe_eq hsub hfull (hsub.subset hmem), if_pos hmem]
    exact ofBits_peBits_decimal neg digits exp10
  · intro ch mean cl hmean hcl fields hsub
    have hfull : (AsmLine.command .adjust [.ch (channelCount ch), .mean mean, .cl cl]).wellFormed = true := by
      cases ch <;> simp [AsmLine.wellFormed, AsmField.inRange, asmKeys, AsmField.key, channelCount, hmean, hcl]
    obtain ⟨cw, hline, hdec⟩ := assemble_of_subperm hsub hfull
    exact ⟨cw, hline, _, _, _, hdec, asmChannels_eq hsub hfull (by simp), asmNumber_toNat hsub hfull (by simp) rfl (by omega),
      asmNumber_toNat hsub hfull (by simp) rfl (by omega)⟩
  · intro ver ch mean a b d e hmean ha hb hd he fields hsub
    have hfull : (AsmLine.command .endFrame [.version ver, .ch (channelCount ch), .mean mean, .slots a b d e]).wellFormed = true := by
      cases ch <;> simp [AsmLine.wellFormed, AsmField.inRange, asmKeys, AsmField.key, channelCount, hmean, ha, hb, hd, he]
    obtain ⟨cw, hline, hdec⟩ := assemble_of_subperm hsub hfull
    refine ⟨cw, hline, _, _, _, _, hdec, asmVersion_eq hsub hfull (by simp), asmChannels_eq hsub hfull (by simp),
      asmNumber_toNat hsub hfull (by simp) rfl (by omega), ?_⟩
    rw [asmSlots_eq hsub hfull (a := a) (b := b) (c := d) (d := e) (by simp)]
    split
    · simp only [BitVec.toNat_ofNat, Prod.mk.injEq]
      omega
    · rfl

/-! ### Edges, by what they are (R56 to R58) -/

section
variable {s : State}

theorem step_of_not_due (hport : ∀ cw, s.port ≠ .executing cw 0) : step s = .next (otherEdge s.nextPins s.dropPins) := by
  have hdue : dueCommand s = none :=
    Option.eq_none_iff_forall_ne_some.mpr fun cw hd => hport cw (dueCommand_eq_some.mp hd).1
  simp only [step, hdue]

theorem step_of_due {cw : CommandWord} (hrst : s.nextPins.rst = false) (hport : s.port = .executing cw 0) :
    step s = .next (commit (decode cw) s.dropPins) := by
  simp only [step, dueCommand_eq_some.mpr ⟨hport, hrst⟩, exec_eq_next_commit]

theorem step_of_rst (hrst : s.nextPins.rst = true) : step s = .next (resetEdge s.dropPins) := by
  simp only [step, dueCommand_of_rst hrst, otherEdge, hrst, if_true]

theorem step_of_accept (hrst : s.nextPins.rst = false) (hport : s.port = .idle) (hvalid : s.nextPins.cmdValid = true) :
    step s = .next (acceptEdge s.nextPins.cmdData s.dropPins) := by
  rw [step_of_not_due (by simp [hport])]
  simp [otherEdge, hrst, hport, hvalid]

theorem step_of_wait {cw : CommandWord} {n : Nat} (hrst : s.nextPins.rst = false) (hport : s.port = .executing cw (n + 1)) :
    step s = .next { s.dropPins with port := .executing cw n } := by
  rw [step_of_not_due (by simp [hport])]
  simp [otherEdge, hrst, hport]

theorem step_of_offer {rw : ResponseWord} (hrst : s.nextPins.rst = false) (hport : s.port = .responding rw) :
    step s = .next (if s.nextPins.rspReady then { s.dropPins with port := .idle } else s.dropPins) := by
  rw [step_of_not_due (by simp [hport])]
  simp [otherEdge, hrst, hport]

end

/-- Settles O46: `step_total`, as `exec` answers for every word and the other edges are total. -/
theorem everyEdgeHasNextState : Obligations.EveryEdgeHasNextState := step_total

/-! ### Acceptance (R56) and `cmd_ready` (R57) -/

/-- Settles O8: of all edges only an accepting one, which needs an idle block, leaves a command in flight where none was. -/
theorem acceptanceCondition : Obligations.AcceptanceCondition := by
  unfold Obligations.AcceptanceCondition
  intro s cw
  constructor
  · rintro ⟨t, w, hstep, ht, hnew⟩
    rcases step_cases hstep with ⟨_, rfl⟩ | ⟨cw', _, hport, _⟩ | ⟨hrst, hport, hvalid, rfl⟩ | ⟨cw', n, _, hport, _⟩ |
      ⟨rw, _, _, _, rfl⟩ | ⟨_, rfl, _⟩
    · cases ht
    · exact absurd hport (hnew _ _)
    · simp only [acceptEdge_port, Port.executing.injEq] at ht
      exact ⟨hrst, hvalid, (cmdReady_iff _ s).mpr ⟨hrst, hport⟩, ht.1⟩
    · exact absurd hport (hnew _ _)
    · cases ht
    · exact absurd ht (hnew _ _)
  · rintro ⟨hrst, hvalid, hready, rfl⟩
    obtain ⟨-, hport⟩ := (cmdReady_iff _ s).mp hready
    exact ⟨_, _, step_of_accept hrst hport hvalid, rfl, by simp [hport]⟩

theorem port_idle_iff (s : State) : s.port = .idle ↔ (∀ cw w, s.port ≠ .executing cw w) ∧ offered s = none := by
  cases h : s.port <;> simp [offered, h]

/-- An idle block stays ready unless it accepts a command. -/
theorem step_of_idle {s : State} (hrst : s.nextPins.rst = false) (hport : s.port = .idle) :
    ∃ t, step s = .next t ∧ (t.port = .idle ↔ s.nextPins.cmdValid = false) := by
  cases hvalid : s.nextPins.cmdValid with
  | true => exact ⟨_, step_of_accept hrst hport hvalid, by simp⟩
  | false =>
    refine ⟨_, step_of_not_due (by simp [hport]), ?_⟩
    simp [otherEdge, hrst, hport, hvalid]

/-- A block that is not idle becomes so, reset apart, only where a response is taken. -/
theorem step_of_busy {s : State} (hrst : s.nextPins.rst = false) (hport : s.port ≠ .idle) :
    ∃ t, step s = .next t ∧ (t.port = .idle ↔ (offered s).isSome = true ∧ s.nextPins.rspReady = true) := by
  cases h : s.port with
  | idle => exact absurd h hport
  | executing cw w =>
    cases w with
    | zero =>
      obtain ⟨rw, hoffer⟩ := commit_port (decode cw) s.dropPins
      exact ⟨_, step_of_due hrst h, by simp [hoffer, offered, h]⟩
    | succ n => exact ⟨_, step_of_wait hrst h, by simp [offered, h]⟩
  | responding rw =>
    refine ⟨_, step_of_offer hrst h, ?_⟩
    cases s.nextPins.rspReady <;> simp [offered, h]

/-- Settles O9: `cmd_ready` is 1 exactly on an idle block, and the two kinds of block have a lemma each. -/
theorem readyFallsAndRises : Obligations.ReadyFallsAndRises := by
  unfold Obligations.ReadyFallsAndRises
  intro s
  have hready (t : State) : cmdReady false t = true ↔ t.port = .idle := by simp [cmdReady_iff]
  refine ⟨rfl, (hready s).trans (port_idle_iff s), fun hrst h => ?_, fun hrst h => ?_⟩
  · obtain ⟨t, hstep, ht⟩ := step_of_idle hrst ((hready s).mp h)
    refine ⟨t, hstep, ?_⟩
    rw [← Bool.not_eq_true, hready, ht, Bool.not_eq_false]
  · obtain ⟨t, hstep, ht⟩ := step_of_busy hrst (fun hidle => by simp [(hready s).mpr hidle] at h)
    exact ⟨t, hstep, (hready t).trans ht⟩

/-- Settles O11: the two arms of `step_of_offer`. -/
theorem responseHeldUntilTaken : Obligations.ResponseHeldUntilTaken := by
  unfold Obligations.ResponseHeldUntilTaken
  intro s rw hoffer hrst
  refine ⟨_, step_of_offer hrst (offered_eq_some.mp hoffer), fun hready => ?_, fun hready => ?_⟩ <;> simp [hready, State.dropPins]

/-! ### The latency of a command (R58) -/

/-- What holds of the samples of the first edges holds of any of them in a row, as far as the list goes. -/
theorem forall_mem_take_drop {ps : List Pins} {P : Pins → Prop} {k n m : Nat} (h : ∀ p ∈ ps.take k, P p) (hle : n + m ≤ k) :
    ∀ p ∈ (ps.drop n).take m, P p := by
  rw [List.take_drop]
  exact fun p hp => h p (List.take_subset_take_left ps hle (List.mem_of_mem_drop hp))

/-- That `rst` is 0 at the next edges, said of the first of them and of the others; past its end the list is quiet. -/
theorem rst_first_and_later {s : State} {n : Nat} (h : ∀ p ∈ s.pins.take (n + 1), p.rst = false) :
    s.nextPins.rst = false ∧ ∀ p ∈ s.pins.tail.take n, p.rst = false := by
  unfold State.nextPins
  cases hpins : s.pins with
  | nil => simp [Pins.quiet]
  | cons p ps =>
    rw [hpins, List.take_succ_cons, List.forall_mem_cons] at h
    exact h

/-- A command in flight waits, whether or not the list of samples lasts for so many edges. -/
theorem run_of_wait {cw : CommandWord} {m : Nat} (n : Nat) {s : State} (hport : s.port = .executing cw (n + m))
    (hrst : ∀ p ∈ s.pins.take n, p.rst = false) :
    core.run n s = .next { s with port := .executing cw m, pins := s.pins.drop n } := by
  induction n generalizing s with
  | zero =>
    rw [Nat.zero_add] at hport
    rw [← hport]
    rfl
  | succ n ih =>
    obtain ⟨hfirst, hlater⟩ := rst_first_and_later hrst
    rw [Nat.succ_add] at hport
    rw [run_succ n (step_of_wait hfirst hport), ih rfl hlater, dropPins_pins, List.drop_tail]
    rfl

/-- An idle block takes the word on offer at the first edge and holds it for the edges of its latency. -/
theorem run_of_accept {s : State} (hport : s.port = .idle) (hvalid : s.nextPins.cmdValid = true) {k : Nat} (hk : k ≤ s.nextDelay)
    (hrst : ∀ p ∈ s.pins.take (k + 1), p.rst = false) :
    core.run (k + 1) s = .next { s with
      port := .executing s.nextPins.cmdData (s.nextDelay - k), pins := s.pins.drop (k + 1), delays := s.delays.tail } := by
  obtain ⟨hfirst, hlater⟩ := rst_first_and_later hrst
  have hflight : (acceptEdge s.nextPins.cmdData s.dropPins).port = .executing s.nextPins.cmdData (k + (s.nextDelay - k)) := by
    rw [Nat.add_sub_cancel' hk]
    rfl
  rw [run_succ k (step_of_accept hfirst hport hvalid), run_of_wait k hflight hlater, acceptEdge_pins, dropPins_pins, List.drop_tail]
  rfl

/-- Settles O10: `run_of_accept` up to each edge of the latency, and `step_of_due` at the last, where `commit_port` gives the response. -/
theorem responseAfterLatency : Obligations.ResponseAfterLatency := by
  unfold Obligations.ResponseAfterLatency
  intro s hport hvalid hrst
  have inFlight {k : Nat} (hk : k ≤ s.nextDelay) :=
    run_of_accept hport hvalid hk (forall_mem_take_drop (n := 0) hrst (by omega))
  refine ⟨fun k hk => ⟨_, inFlight hk, rfl, rfl⟩, ?_⟩
  have hrun := inFlight le_rfl
  rw [Nat.sub_self] at hrun
  obtain ⟨rw, hoffer⟩ := commit_port (decode s.nextPins.cmdData)
    { s with port := .executing s.nextPins.cmdData 0, pins := s.pins.drop (s.nextDelay + 2), delays := s.delays.tail }
  refine ⟨_, rw, ?_, offered_eq_some.mpr hoffer, rfl⟩
  have hlast := step_of_due (s := { s with
    port := .executing s.nextPins.cmdData 0, pins := s.pins.drop (s.nextDelay + 1), delays := s.delays.tail })
    (And.left (rst_first_and_later (n := 0) (forall_mem_take_drop hrst le_rfl))) rfl
  rw [State.dropPins, List.tail_drop] at hlast
  exact (run_add _ 1 hrun).trans (run_succ 0 hlast)

/-! ### The directive `.reset` (R74, R170) -/

/-- One or more edges with `rst` = 1 leave the block reset, whatever else the host does: each of them resets it, and what follows starts
from a state with the later samples. -/
theorem run_of_rst {held rest : List Pins} {s : State} (hne : held ≠ []) (hrst : ∀ p ∈ held, p.rst = true)
    (hpins : s.pins = held ++ rest) :
    core.run held.length s = .next { State.reset with pins := rest, delays := s.delays, params := s.params } := by
  induction held generalizing s with
  | nil => exact absurd rfl hne
  | cons p ps ih =>
    rw [List.forall_mem_cons] at hrst
    have hstep := step_of_rst (s := s) (by simp [State.nextPins, hpins, hrst.1])
    have htail : (resetEdge s.dropPins).pins = ps ++ rest := by simp [hpins]
    rw [List.length_cons, run_succ _ hstep]
    by_cases hps : ps = []
    · subst hps
      rw [List.nil_append] at htail
      rw [← htail]
      rfl
    · exact ih hps hrst.2 htail

/-- Settles O51: the assembler's check of the number of cycles, and `run_of_rst`. -/
theorem resetDirectiveResets : Obligations.ResetDirectiveResets := by
  unfold Obligations.ResetDirectiveResets
  refine ⟨rfl, fun n hn => ⟨by simp [assemble, AsmLine.wellFormed, hn], fun held rest s hlen hrst hpins => ?_⟩⟩
  subst hlen
  exact run_of_rst (List.ne_nil_of_length_pos hn) hrst hpins

end Sys2Proof.Machine
end

section
/-! PROOFS. 40_begin_frame.md: the outcomes of BEGIN_FRAME between frames and in GRANULE_LOOP, the capacity it sets (R81 to R84), and the
consistency check (R83, R85). -/

namespace Sys2Proof.Machine

/-! ### What `exec` answers to a BEGIN_FRAME (R80, R83, R84) -/

section
variable {s : State} {ro : BitVec 16}

theorem exec_beginFrame_of_legal (hphase : s.phase = .frameStart ∨ s.phase = .frameDone) (ver : Version) (m fl ro : BitVec 16) :
    exec (.beginFrame ver m fl ro) s = .next (beginFrameBody ver fl ro s) := by
  rw [exec_eq_next_commit, commit_beginFrame, guarded_of_legal ((legal_beginFrame_iff _).mpr hphase)]

theorem exec_beginFrame_of_match (hphase : s.phase = .frameStart ∨ s.phase = .frameDone) (hro : zext ro = s.occInt)
    (ver : Version) (m fl : BitVec 16) :
    exec (.beginFrame ver m fl ro) s =
      .next (respond .beginFrame 0#112 ((s.setCap (capacity ver fl)).setPhase .granuleLoop)) := by
  rw [exec_beginFrame_of_legal hphase, beginFrameBody, if_neg (not_not.mpr hro)]

theorem exec_beginFrame_of_mismatch (hphase : s.phase = .frameStart ∨ s.phase = .frameDone) (hro : zext ro ≠ s.occInt)
    (ver : Version) (m fl : BitVec 16) :
    exec (.beginFrame ver m fl ro) s = .next (raiseFault .desync .beginFrame s) := by
  rw [exec_beginFrame_of_legal hphase, beginFrameBody, if_pos hro]

theorem exec_beginFrame_of_granuleLoop (hphase : s.phase = .granuleLoop) (ver : Version) (m fl ro : BitVec 16) :
    exec (.beginFrame ver m fl ro) s = .next (raiseFault .seq .beginFrame s) := by
  rw [exec_eq_next_commit, commit_beginFrame, guarded_of_illegal (by simp [hphase]) (by simp [hphase, legal])]

end

/-- The response of a successful BEGIN_FRAME is all zero: ST, RAISED and its own OPE are 0 (30_encoding.md R70). -/
theorem responseWord_beginFrame_zero : responseWord .none false .beginFrame 0#112 = 0#128 := by decide

/-- The response of a BEGIN_FRAME that raises DESYNC: ST 1, RAISED 1, OPE 0 (30_encoding.md R70). -/
theorem responseWord_beginFrame_desync : responseWord .desync true .beginFrame 0#112 = 5#128 := by decide

/-- Settles O23: the state is `exec_beginFrame_of_match`'s, and CAP holds the capacity whole by `zext_enc_capacity`. -/
theorem beginFrameSetsCapacity : Obligations.BeginFrameSetsCapacity := by
  unfold Obligations.BeginFrameSetsCapacity
  intro ver m fl ro s hphase hro
  have hcap : ((enc 12 (capacity ver fl)).toNat : Int) = capacity ver fl := zext_enc_capacity ver fl
  refine ⟨_, exec_beginFrame_of_match hphase hro ver m fl, ?_, ?_, ?_⟩
  · rw [← responseWord_beginFrame_zero]
    rfl
  · rw [respond_cap, setPhase_cap, setCap_cap, hcap]
    cases ver <;> simp [capacity, resvLimit, Config.twoFrameCeil, zext]
  · rw [respond_cap, setPhase_cap, setCap_cap]
    have hle := (capacity_range ver fl).2
    omega

/-- Settles O25: a success keeps FAULT and goes to GRANULE_LOOP, where every BEGIN_FRAME raises SEQ; a mismatch raises DESYNC. -/
theorem beginFrameIdempotenceBoundary : Obligations.BeginFrameIdempotenceBoundary := by
  unfold Obligations.BeginFrameIdempotenceBoundary
  intro ver m fl ro s hphase hfault
  by_cases hro : zext ro = s.occInt
  · refine ⟨_, exec_beginFrame_of_match hphase hro ver m fl, iff_of_true hfault hro, fun hne => absurd hfault hne, ?_⟩
    intro _ ver' m' fl' ro'
    exact ⟨_, exec_beginFrame_of_granuleLoop rfl ver' m' fl' ro', rfl, rfl⟩
  · have hraised : (raiseFault .desync .beginFrame s).fault ≠ .none := by simp
    exact ⟨_, exec_beginFrame_of_mismatch hphase hro ver m fl, iff_of_false hraised hro, fun _ => rfl,
      fun hnone => absurd hnone hraised⟩

/-- Settles O24: `raiseFault` writes FAULT, PHASE and the response alone. -/
theorem beginFrameMismatchDesyncs : Obligations.BeginFrameMismatchDesyncs := by
  unfold Obligations.BeginFrameMismatchDesyncs
  intro ver m fl ro s hphase hro
  rw [exec_beginFrame_of_mismatch hphase hro, ← responseWord_beginFrame_desync]
  rfl

end Sys2Proof.Machine
end

section
/-! PROOFS. 41_granule.md: what the binary64 operations make of an entropy and which wish they give (R98), the bounds and the growth of
ALLOWED (R95 to R103), and ADJUST with the host discipline (R104 to R107). -/

namespace Sys2Proof.Machine

/-! ### The rounded magnitude -/

/-- The magnitude that a rounding gives before it is checked against the overflow threshold. -/
def F64.roundedMag (num den : Nat) : Nat := F64.steps num den * 2 ^ F64.spacing num den

theorem round_eq_roundedMag (neg : Bool) (num den : Nat) :
    F64.round neg num den =
      if F64.tooLarge ≤ F64.roundedMag num den then .inf neg else .finite neg (F64.roundedMag num den) := rfl

theorem round_eq_finite_iff {neg : Bool} {num den mag : Nat} :
    F64.round neg num den = .finite neg mag ↔ F64.roundedMag num den < F64.tooLarge ∧ F64.roundedMag num den = mag := by
  rw [round_eq_roundedMag]
  split <;> simp <;> omega

theorem spacing_mono {num num' : Nat} (h : num ≤ num') (den : Nat) : F64.spacing num den ≤ F64.spacing num' den := by
  unfold F64.spacing
  rw [Nat.log2_eq_log_two, Nat.log2_eq_log_two]
  exact Nat.sub_le_sub_right (Nat.log_mono_right (Nat.div_le_div_right h)) 52

/-- A tie between two neighbours would have to go to an even number on either side. -/
theorem roundNearestEven_mono {num num' : Nat} (h : num ≤ num') {den : Nat} (hd : 0 < den) :
    roundNearestEven num den ≤ roundNearestEven num' den := by
  obtain ⟨-, hlow, -, heven⟩ := roundNearestEven_spec num den hd
  obtain ⟨hup, -, heven', -⟩ := roundNearestEven_spec num' den hd
  generalize roundNearestEven num den = q at *
  generalize roundNearestEven num' den = q' at *
  by_contra! hlt
  have hstep : (2 * q' + 2) * den ≤ 2 * q * den := Nat.mul_le_mul_right den (by omega)
  have hq : 2 * q * den = 2 * num + den := by nlinarith
  have hq' : 2 * num' = (2 * q' + 1) * den := by nlinarith
  have hnext : 2 * q * den = (2 * q' + 2) * den := by nlinarith
  have hsucc := Nat.eq_of_mul_eq_mul_right hd hnext
  have hqEven := heven hq
  have hqEven' := heven' hq'
  omega

/-- Rounding keeps the order: within one spacing the number of steps does, and a wider spacing starts where a narrower one ends. -/
theorem roundedMag_mono {num num' : Nat} (h : num ≤ num') {den : Nat} (hd : 0 < den) :
    F64.roundedMag num den ≤ F64.roundedMag num' den := by
  unfold F64.roundedMag
  rcases (spacing_mono h den).eq_or_lt with heq | hlt
  · unfold F64.steps
    rw [heq]
    exact Nat.mul_le_mul_right _ (roundNearestEven_mono h (by positivity))
  · have hnorm : 2 ^ 52 ≤ F64.steps num' den := (le_steps num' den hd).resolve_left (by omega)
    calc F64.steps num den * 2 ^ F64.spacing num den
        ≤ 2 ^ 53 * 2 ^ F64.spacing num den := Nat.mul_le_mul_right _ (steps_le num den hd)
      _ = 2 ^ 52 * 2 ^ (F64.spacing num den + 1) := by ring
      _ ≤ 2 ^ 52 * 2 ^ F64.spacing num' den := Nat.mul_le_mul_left _ (Nat.pow_le_pow_right (by decide) hlt)
      _ ≤ F64.steps num' den * 2 ^ F64.spacing num' den := Nat.mul_le_mul_right _ hnorm

theorem roundedMag_zero {den : Nat} (hd : 0 < den) : F64.roundedMag 0 den = 0 := by
  have hz : F64.steps 0 den = 0 := by simpa [F64.steps] using roundNearestEven_mul 0 (den * 2 ^ F64.spacing 0 den) (by positivity)
  rw [F64.roundedMag, hz, Nat.zero_mul]

theorem roundedMag_le_largest {num den : Nat} (hd : 0 < den) (hfin : F64.roundedMag num den < F64.tooLarge) :
    F64.roundedMag num den + F64.topSpacing ≤ F64.tooLarge := by
  obtain ⟨m, e, hm, he, -, -, hmag⟩ := steps_normal_form num den hd hfin
  have hpow : 2 ^ e ≤ F64.topSpacing := by
    rcases two_pow_topSpacing e with ⟨-, h⟩ | ⟨-, h⟩ | ⟨h, -⟩ <;> omega
  rw [F64.roundedMag, hmag, tooLarge_eq]
  generalize F64.topSpacing = top at *
  have := Nat.mul_le_mul (show m ≤ 2 ^ 53 - 1 by omega) hpow
  omega

theorem f64_one_pos : 0 < F64.one := by
  rw [one_eq]
  positivity

theorem base_lt_half_topSpacing {base : Nat} (h : base ≤ 4095) : 2 * (base * F64.one) < F64.topSpacing := by
  have hone := f64_one_pos
  have htop : 2 ^ 13 * F64.one ≤ F64.topSpacing := by
    unfold F64.one F64.topSpacing
    rw [← pow_add]
    exact Nat.pow_le_pow_right (by decide) (by decide)
  generalize F64.topSpacing = top at *
  generalize F64.one = one at *
  nlinarith

/-! ### The patterns of an entropy (R65) -/

/-- The magnitude that the exponent and fraction fields of a finite pattern give, as in `F64.Denotes`. -/
def F64.patternMag (b : BitVec 64) : Nat :=
  if b.extractLsb' 52 11 = 0#11 then (b.extractLsb' 0 52).toNat
  else (2 ^ 52 + (b.extractLsb' 0 52).toNat) * 2 ^ ((b.extractLsb' 52 11).toNat - 1)

theorem ofBits_finite {b : BitVec 64} (h : b.extractLsb' 52 11 ≠ 0x7FF#11) :
    F64.ofBits b = .finite (b.getLsbD 63) (F64.patternMag b) := ofBits_of_denotes ⟨h, rfl, rfl⟩

theorem exponent_toNat (b : BitVec 64) : (b.extractLsb' 52 11).toNat = b.toNat / 2 ^ 52 % 2 ^ 11 := by
  rw [BitVec.extractLsb'_toNat, Nat.shiftRight_eq_div_pow]

theorem fraction_toNat (b : BitVec 64) : (b.extractLsb' 0 52).toNat = b.toNat % 2 ^ 52 := by
  rw [BitVec.extractLsb'_toNat, Nat.shiftRight_zero]

theorem exponent_eq_iff (b : BitVec 64) (c : BitVec 11) : b.extractLsb' 52 11 = c ↔ b.toNat / 2 ^ 52 % 2 ^ 11 = c.toNat := by
  rw [← BitVec.toNat_inj, exponent_toNat]

theorem fraction_eq_zero_iff (b : BitVec 64) : b.extractLsb' 0 52 = 0#52 ↔ b.toNat % 2 ^ 52 = 0 := by
  rw [← BitVec.toNat_inj, fraction_toNat]
  rfl

theorem zeroBits_iff (b : BitVec 64) : b.extractLsb' 0 63 = 0#63 ↔ b.toNat % 2 ^ 63 = 0 := by
  rw [← BitVec.toNat_inj, BitVec.extractLsb'_toNat, Nat.shiftRight_zero]
  rfl

theorem patternMag_eq_zero_iff (b : BitVec 64) : F64.patternMag b = 0 ↔ b.extractLsb' 0 63 = 0#63 := by
  simp only [F64.patternMag, exponent_eq_iff, fraction_toNat, zeroBits_iff, show (0#11).toNat = 0 from rfl]
  split
  · omega
  · have : 0 < 2 ^ ((b.extractLsb' 52 11).toNat - 1) := Nat.two_pow_pos _
    exact iff_of_false (by simp) (by omega)

/-- The exponent field bounds the magnitude on both sides. -/
theorem patternMag_range (b : BitVec 64) :
    F64.patternMag b < 2 ^ 52 * 2 ^ (b.extractLsb' 52 11).toNat ∧
    (b.extractLsb' 52 11 ≠ 0#11 → 2 ^ 52 * 2 ^ ((b.extractLsb' 52 11).toNat - 1) ≤ F64.patternMag b) := by
  have hfrac := (b.extractLsb' 0 52).isLt
  unfold F64.patternMag
  split
  · rename_i h
    exact ⟨by simpa [h] using hfrac, absurd h⟩
  · rename_i h
    have hne : (b.extractLsb' 52 11).toNat ≠ 0 := fun h0 => h (BitVec.eq_of_toNat_eq h0)
    obtain ⟨e, he⟩ := Nat.exists_eq_succ_of_ne_zero hne
    rw [he, Nat.succ_sub_one]
    refine ⟨?_, fun _ => Nat.mul_le_mul_right _ (by omega)⟩
    calc (2 ^ 52 + (b.extractLsb' 0 52).toNat) * 2 ^ e
        < 2 ^ 53 * 2 ^ e := Nat.mul_lt_mul_of_pos_right (by omega) (Nat.two_pow_pos _)
      _ = 2 ^ 52 * 2 ^ (e + 1) := by ring

/-- Patterns without a sign are in the order of their magnitudes. -/
theorem patternMag_mono {b b' : BitVec 64} (h : b.toNat ≤ b'.toNat) (hsign : b'.toNat < 2 ^ 63) :
    F64.patternMag b ≤ F64.patternMag b' := by
  have hexp := exponent_toNat b
  have hexp' := exponent_toNat b'
  have hfrac := fraction_toNat b
  have hfrac' := fraction_toNat b'
  rcases Nat.lt_or_ge (b.extractLsb' 52 11).toNat (b'.extractLsb' 52 11).toNat with hlt | hge
  · have hne : b'.extractLsb' 52 11 ≠ 0#11 := fun h0 => by simp [h0] at hlt
    calc F64.patternMag b ≤ 2 ^ 52 * 2 ^ (b.extractLsb' 52 11).toNat := (patternMag_range b).1.le
      _ ≤ 2 ^ 52 * 2 ^ ((b'.extractLsb' 52 11).toNat - 1) :=
        Nat.mul_le_mul_left _ (Nat.pow_le_pow_right (by decide) (by omega))
      _ ≤ F64.patternMag b' := (patternMag_range b').2 hne
  · have heq : b.extractLsb' 52 11 = b'.extractLsb' 52 11 := BitVec.eq_of_toNat_eq (by omega)
    have hle : (b.extractLsb' 0 52).toNat ≤ (b'.extractLsb' 0 52).toNat := by rw [heq] at hexp; omega
    unfold F64.patternMag
    rw [heq]
    split
    · exact hle
    · exact Nat.mul_le_mul_right _ (by omega)

/-! ### Patterns of NaN, of the infinities and of the zeros, and those from +0 to +∞ (R65) -/

def F64.NaNPattern (b : BitVec 64) : Prop := b.extractLsb' 52 11 = 0x7FF#11 ∧ b.extractLsb' 0 52 ≠ 0#52

def F64.InfPattern (b : BitVec 64) : Prop := b.extractLsb' 52 11 = 0x7FF#11 ∧ b.extractLsb' 0 52 = 0#52

def F64.ZeroPattern (b : BitVec 64) : Prop := b.extractLsb' 0 63 = 0#63

section
variable {b : BitVec 64}

theorem ofBits_of_nanPattern (h : F64.NaNPattern b) : F64.ofBits b = .nan := ofBits_of_nan h.1 h.2

theorem ofBits_of_infPattern (h : F64.InfPattern b) : F64.ofBits b = .inf (b.getLsbD 63) := ofBits_of_inf h.1 h.2

theorem ofBits_of_zeroPattern (h : F64.ZeroPattern b) : F64.ofBits b = .finite (b.getLsbD 63) 0 := by
  have hmag : F64.patternMag b = 0 := (patternMag_eq_zero_iff b).mpr h
  have hexp : b.extractLsb' 52 11 ≠ 0x7FF#11 := by
    intro he
    have hle := (patternMag_range b).2 (by simp [he])
    rw [hmag] at hle
    exact absurd hle (Nat.not_le.mpr (by positivity))
  rw [ofBits_finite hexp, hmag]

/-- A pattern that is neither a NaN nor a zero is an infinity or a finite value other than zero. -/
theorem ofBits_of_nonzero (hnan : ¬F64.NaNPattern b) (hzero : ¬F64.ZeroPattern b) :
    F64.ofBits b = .inf (b.getLsbD 63) ∨ ∃ mag, mag ≠ 0 ∧ F64.ofBits b = .finite (b.getLsbD 63) mag := by
  by_cases he : b.extractLsb' 52 11 = 0x7FF#11
  · exact .inl (ofBits_of_inf he (not_not.mp fun hf => hnan ⟨he, hf⟩))
  · exact .inr ⟨_, mt (patternMag_eq_zero_iff b).mp hzero, ofBits_finite he⟩

end

section
variable {b : BitVec 64} (h : b.toNat ≤ 0x7FF0000000000000)
include h

theorem getLsbD_of_le_inf : b.getLsbD 63 = false := Nat.testBit_lt_two_pow (by omega)

theorem infPattern_iff_of_le_inf : F64.InfPattern b ↔ b.toNat = 0x7FF0000000000000 := by
  rw [F64.InfPattern, exponent_eq_iff, fraction_eq_zero_iff, show (0x7FF#11).toNat = 2047 from rfl]
  omega

theorem not_nanPattern_of_le_inf : ¬F64.NaNPattern b := by
  rw [F64.NaNPattern, ne_eq, exponent_eq_iff, fraction_eq_zero_iff, show (0x7FF#11).toNat = 2047 from rfl]
  omega

theorem zeroPattern_iff_of_le_inf : F64.ZeroPattern b ↔ b.toNat = 0 := by
  rw [F64.ZeroPattern, zeroBits_iff]
  omega

end

/-- Below the pattern of +∞ a pattern is finite without a sign. -/
theorem ofBits_of_lt_inf {b : BitVec 64} (h : b.toNat < 0x7FF0000000000000) : F64.ofBits b = .finite false (F64.patternMag b) := by
  have hexp : b.extractLsb' 52 11 ≠ 0x7FF#11 := by
    rw [ne_eq, exponent_eq_iff, show (0x7FF#11).toNat = 2047 from rfl]
    omega
  rw [ofBits_finite hexp, getLsbD_of_le_inf h.le]

/-! ### The wish (R98) -/

section
variable {p : Params} {pe : BitVec 64} {base : Int}

theorem wantMin_lt_of_wanted_eq_bits {w : Int} (h : wanted p pe base = .bits w) : p.wantMin < w := by
  unfold wanted at h
  generalize F64.sub _ _ = d at h
  cases d with
  | nan => cases h
  | inf neg =>
    rw [wishOf_inf] at h
    cases neg <;> cases h
  | finite neg mag =>
    rw [wishOf_finite] at h
    split at h
    · cases h
      assumption
    · cases h

/-- The exact difference, in units of the smallest subnormal, of a product and the share. -/
def wishDifference (sign : Bool) (product : Nat) (base : Int) : Int := F64.signed sign product - base * F64.one

/-- The wish that an integer is, if it is above WANT_MIN. -/
def wishAbove (wantMin w : Int) : Wish := if wantMin < w then .bits w else .noExtra

/-- The integer part of a difference that is rounded once. -/
def truncRounded (d : Int) : Int := F64.truncFinite (d < 0) (F64.roundedMag d.natAbs 1)

theorem truncRounded_eq (d : Int) :
    truncRounded d =
      if d < 0 then -((F64.roundedMag d.natAbs 1 / F64.one : Nat) : Int) else (F64.roundedMag d.natAbs 1 / F64.one : Nat) := by
  simp only [truncRounded, F64.truncFinite, F64.signed, decide_eq_true_eq]

theorem truncRounded_zero : truncRounded 0 = 0 := by
  rw [truncRounded, Int.natAbs_zero, roundedMag_zero Nat.one_pos, truncFinite_zero]

/-- The difference is finite: it is less than half of the largest spacing past the largest finite product. -/
theorem roundedMag_difference_lt (sign : Bool) {product : Nat} (h0 : 0 ≤ base) (h1 : base ≤ 4095)
    (hfin : product + F64.topSpacing ≤ F64.tooLarge) :
    F64.roundedMag (wishDifference sign product base).natAbs 1 < F64.tooLarge := by
  obtain ⟨n, rfl⟩ := Int.eq_ofNat_of_zero_le h0
  have hbase := base_lt_half_topSpacing (base := n) (by omega)
  have habs : (wishDifference sign product n).natAbs ≤ product + n * F64.one := by
    unfold wishDifference F64.signed
    rw [← Nat.cast_mul]
    split <;> omega
  rw [← not_le, F64.roundedMag, tooLarge_le_steps_iff _ _ Nat.one_pos]
  omega

section
variable {neg kNeg : Bool} {mag kMag : Nat}

theorem wanted_of_infinite_product (h0 : 0 ≤ base) (h1 : base ≤ 4095) (hpe : F64.ofBits pe = .finite neg mag)
    (hk : F64.ofBits p.kPe = .finite kNeg kMag) (hinf : F64.round (neg ^^ kNeg) (mag * kMag) F64.one = .inf (neg ^^ kNeg)) :
    wanted p pe base = if neg ^^ kNeg then .noExtra else .unbounded := by
  rw [wanted, hpe, hk, ofInt_base base h0 h1, mul_finite, hinf, sub_inf_finite, wishOf_inf]

/-- The difference is rounded once; where it is zero, `fsub` chooses the sign of the zero, which the integer part does not show. -/
theorem wanted_of_finite_product (h0 : 0 ≤ base) (h1 : base ≤ 4095) (hpe : F64.ofBits pe = .finite neg mag)
    (hk : F64.ofBits p.kPe = .finite kNeg kMag) (hfin : F64.roundedMag (mag * kMag) F64.one < F64.tooLarge) :
    wanted p pe base =
      wishAbove p.wantMin (truncRounded (wishDifference (neg ^^ kNeg) (F64.roundedMag (mag * kMag) F64.one) base)) := by
  have hdiff := roundedMag_difference_lt (neg ^^ kNeg) h0 h1 (roundedMag_le_largest f64_one_pos hfin)
  have hsigned : F64.signed (neg ^^ kNeg) (F64.roundedMag (mag * kMag) F64.one) - F64.signed false (base.toNat * F64.one) =
      wishDifference (neg ^^ kNeg) (F64.roundedMag (mag * kMag) F64.one) base := by
    have hbase : F64.signed false (base.toNat * F64.one) = base * F64.one := by
      change ((base.toNat * F64.one : Nat) : Int) = _
      rw [Nat.cast_mul, Int.toNat_of_nonneg h0]
    rw [hbase, wishDifference]
  rw [wanted, hpe, hk, ofInt_base base h0 h1, mul_finite, round_eq_finite_iff.mpr ⟨hfin, rfl⟩, sub_finite, hsigned]
  generalize wishDifference (neg ^^ kNeg) (F64.roundedMag (mag * kMag) F64.one) base = d at *
  split
  · rename_i hd
    rw [hd, truncRounded_zero, wishOf_finite, truncFinite_zero]
    rfl
  · rw [round_eq_finite_iff.mpr ⟨hdiff, rfl⟩, wishOf_finite]
    rfl

end
end

/-- Settles O50: the two lemmas on a finite and an infinite product, at the values that the patterns denote. -/
theorem wishOfFiniteEntropies : Obligations.WishOfFiniteEntropies := by
  unfold Obligations.WishOfFiniteEntropies
  refine ⟨⟨⟨by decide, by decide, ?_⟩, rfl⟩, ?_⟩
  · rw [if_neg (by decide), show (Config.params.kPe.extractLsb' 0 52).toNat = 0x8CCCCCCCCCCCD from by decide,
      show (Config.params.kPe.extractLsb' 52 11).toNat = 1024 from by decide,
      show 2 ^ 52 + 0x8CCCCCCCCCCCD = 0x18CCCCCCCCCCCD from by norm_num]
  · intro p pe base neg kNeg mag kMag h0 h1 hpe hk sign
    have hpe := ofBits_of_denotes hpe
    have hk := ofBits_of_denotes hk
    refine ⟨fun hinf => wanted_of_infinite_product h0 h1 hpe hk hinf, fun product hround => ?_⟩
    obtain ⟨hfin, rfl⟩ := round_eq_finite_iff.mp hround
    refine ⟨_, round_eq_finite_iff.mpr ⟨roundedMag_difference_lt sign h0 h1 (roundedMag_le_largest f64_one_pos hfin), rfl⟩, ?_⟩
    rw [wanted_of_finite_product h0 h1 hpe hk hfin, truncRounded_eq]
    rfl

/-! ### Entropies that are not finite (R98, R17) -/

theorem f64_mul_comm (x y : F64) : F64.mul x y = F64.mul y x := by
  cases x <;> cases y <;> simp [F64.mul, Bool.xor_comm, Nat.mul_comm]

theorem mul_inf_nonzero (a b : Bool) {x : F64} (hx : x = .inf b ∨ ∃ mag, mag ≠ 0 ∧ x = .finite b mag) :
    F64.mul (.inf a) x = .inf (a ^^ b) := by
  rcases hx with rfl | ⟨mag, hmag, rfl⟩
  · rfl
  · exact if_neg hmag

section
variable {p : Params} {pe : BitVec 64} {base : Int}

theorem wanted_of_nan_product (h : F64.mul (F64.ofBits pe) (F64.ofBits p.kPe) = .nan) : wanted p pe base = .noExtra := by
  rw [wanted, h]
  rfl

theorem wanted_of_nanPattern (h : F64.NaNPattern pe ∨ F64.NaNPattern p.kPe) : wanted p pe base = .noExtra := by
  apply wanted_of_nan_product
  rcases h with h | h <;> rw [ofBits_of_nanPattern h]
  · rfl
  · rw [f64_mul_comm]
    rfl

theorem wanted_of_inf_times_zero
    (h : F64.InfPattern pe ∧ F64.ZeroPattern p.kPe ∨ F64.ZeroPattern pe ∧ F64.InfPattern p.kPe) :
    wanted p pe base = .noExtra := by
  apply wanted_of_nan_product
  rcases h with ⟨hinf, hzero⟩ | ⟨hzero, hinf⟩ <;> rw [ofBits_of_infPattern hinf, ofBits_of_zeroPattern hzero]
  · rfl
  · rfl

theorem wanted_of_inf_times_nonzero (h0 : 0 ≤ base) (h1 : base ≤ 4095)
    (h : F64.InfPattern pe ∧ ¬F64.NaNPattern p.kPe ∧ ¬F64.ZeroPattern p.kPe ∨
      F64.InfPattern p.kPe ∧ ¬F64.NaNPattern pe ∧ ¬F64.ZeroPattern pe) :
    wanted p pe base = if pe.getLsbD 63 = p.kPe.getLsbD 63 then .unbounded else .noExtra := by
  have hmul : F64.mul (F64.ofBits pe) (F64.ofBits p.kPe) = .inf (pe.getLsbD 63 ^^ p.kPe.getLsbD 63) := by
    rcases h with ⟨hinf, hnan, hzero⟩ | ⟨hinf, hnan, hzero⟩
    · rw [ofBits_of_infPattern hinf, mul_inf_nonzero _ _ (ofBits_of_nonzero hnan hzero)]
    · rw [f64_mul_comm, ofBits_of_infPattern hinf, mul_inf_nonzero _ _ (ofBits_of_nonzero hnan hzero), Bool.xor_comm]
  rw [wanted, hmul, ofInt_base base h0 h1, sub_inf_finite, wishOf_inf]
  generalize pe.getLsbD 63 = a
  generalize p.kPe.getLsbD 63 = b
  cases a <;> cases b <;> rfl

end

theorem wanted_default_neg_inf {base : Int} (h0 : 0 ≤ base) (h1 : base ≤ 4095) :
    wanted Config.params 0xFFF0000000000000#64 base = .noExtra :=
  wanted_of_inf_times_nonzero h0 h1 (.inl (by unfold F64.InfPattern F64.NaNPattern F64.ZeroPattern; decide))

theorem wanted_default_inf {base : Int} (h0 : 0 ≤ base) (h1 : base ≤ 4095) :
    wanted Config.params 0x7FF0000000000000#64 base = .unbounded :=
  wanted_of_inf_times_nonzero h0 h1 (.inl (by unfold F64.InfPattern F64.NaNPattern F64.ZeroPattern; decide))

/-- Settles O31: one lemma for each kind of product, and `wantMin_lt_of_wanted_eq_bits` for a wish; the two default
clauses are cases of the third. -/
theorem wishOfSpecialEntropies : Obligations.WishOfSpecialEntropies := by
  unfold Obligations.WishOfSpecialEntropies
  refine ⟨fun p pe base h0 h1 => ?_, fun base h0 h1 => ?_⟩
  · exact ⟨wanted_of_nanPattern, wanted_of_inf_times_zero, wanted_of_inf_times_nonzero h0 h1,
      fun _ => wantMin_lt_of_wanted_eq_bits⟩
  · exact ⟨wanted_default_neg_inf h0 h1, wanted_default_inf h0 h1, fun _ _ => wantMin_lt_of_wanted_eq_bits⟩

/-! ### The parts of ALLOWED (R96, R99, R100) -/

theorem share_eq_ite (ch : Channels) (m : BitVec 16) : share ch m = (m.toNat : Int) / (if ch = .stereo then 2 else 1) := by
  rw [share_eq]
  cases ch <;> rfl

theorem baseBits_eq (ch : Channels) (m : BitVec 16) :
    baseBits ch m = min ((m.toNat : Int) / (if ch = .stereo then 2 else 1)) 4095 := by
  rw [baseBits, share_eq_ite]
  rfl

theorem extraBits_eq (p : Params) (occ cap base : Int) (pe : BitVec 64) :
    extraBits p occ cap base pe =
      max (perceptualExtra (wanted p pe base) (drawLimit p occ)) (occ - tdiv (cap * p.highNum) p.highDen) := by
  have hover (extra : Int) : overdraft p occ cap extra = occ - tdiv (cap * p.highNum) p.highDen - extra := rfl
  unfold extraBits
  dsimp only
  split <;> rw [hover] at * <;> omega

theorem allowedBits_eq (p : Params) (occ cap : Int) (ch : Channels) (m : BitVec 16) (pe : BitVec 64) :
    allowedBits p occ cap ch m pe =
      if cap = 0 then baseBits ch m else min (baseBits ch m + extraBits p occ cap (baseBits ch m) pe) 4095 := rfl

/-- Settles O29: `extraBits_eq`, and the default share of a CAP that is not negative is a floor division. -/
theorem overdraftTakesTheLarger : Obligations.OverdraftTakesTheLarger := by
  unfold Obligations.OverdraftTakesTheLarger
  refine ⟨extraBits_eq, fun cap hcap => ?_⟩
  rw [Int.tdiv_eq_ediv_of_nonneg (by simp only [Config.params]; omega)]
  rfl

section
variable {p : Params} (hp : p.Legal)
include hp

theorem drawLimit_mono {occ occ' : Int} (h : occ ≤ occ') : drawLimit p occ ≤ drawLimit p occ' :=
  Int.tdiv_le_tdiv hp.drawDen_pos (Int.mul_le_mul_of_nonneg_right h hp.drawNum_nonneg)

/-- No more than what is banked is drawn, and no deficit larger than what is owed is answered. -/
theorem drawLimit_range (occ : Int) : min 0 occ ≤ drawLimit p occ ∧ drawLimit p occ ≤ max 0 occ := by
  have hden := hp.drawDen_pos
  have hnum := hp.drawNum_nonneg
  have hle := hp.drawNum_le
  have hself : tdiv (occ * p.drawDen) p.drawDen = occ := Int.mul_tdiv_cancel _ hden.ne'
  have hzero : tdiv 0 p.drawDen = 0 := Int.zero_tdiv _
  unfold drawLimit
  rcases le_total 0 occ with h | h
  · have hlow : tdiv 0 p.drawDen ≤ tdiv (occ * p.drawNum) p.drawDen := Int.tdiv_le_tdiv hden (by positivity)
    have hup : tdiv (occ * p.drawNum) p.drawDen ≤ tdiv (occ * p.drawDen) p.drawDen := Int.tdiv_le_tdiv hden (by nlinarith)
    omega
  · have hlow : tdiv (occ * p.drawDen) p.drawDen ≤ tdiv (occ * p.drawNum) p.drawDen := Int.tdiv_le_tdiv hden (by nlinarith)
    have hup : tdiv (occ * p.drawNum) p.drawDen ≤ tdiv 0 p.drawDen := Int.tdiv_le_tdiv hden (by nlinarith)
    omega

theorem highShare_nonneg {cap : Int} (hcap : 0 ≤ cap) : 0 ≤ tdiv (cap * p.highNum) p.highDen :=
  Int.tdiv_nonneg (mul_nonneg hcap hp.highNum_nonneg) hp.highDen_pos.le

/-- A wish is above WANT_MIN, so it never asks for less than nothing. -/
theorem perceptualExtra_range (pe : BitVec 64) (base q : Int) :
    min 0 q ≤ perceptualExtra (wanted p pe base) q ∧ perceptualExtra (wanted p pe base) q ≤ max 0 q := by
  cases hw : wanted p pe base with
  | noExtra | unbounded => simp only [perceptualExtra]; omega
  | bits w =>
    have hmin := wantMin_lt_of_wanted_eq_bits hw
    have hnonneg := hp.wantMin_nonneg
    simp only [perceptualExtra]
    omega

theorem extraBits_range {occ cap : Int} (hocc : 0 ≤ occ) (hcap : 0 ≤ cap) (base : Int) (pe : BitVec 64) :
    0 ≤ extraBits p occ cap base pe ∧ extraBits p occ cap base pe ≤ occ := by
  have hdraw := drawLimit_range hp occ
  have hwish := perceptualExtra_range hp pe base (drawLimit p occ)
  have hhigh := highShare_nonneg hp hcap
  rw [extraBits_eq]
  omega

theorem min_drawLimit_le_extraBits (occ cap base : Int) (pe : BitVec 64) :
    min 0 (drawLimit p occ) ≤ extraBits p occ cap base pe := by
  rw [extraBits_eq]
  exact (perceptualExtra_range hp pe base _).1.trans (le_max_left _ _)

theorem allowedBits_ge (occ cap : Int) (ch : Channels) (m : BitVec 16) (pe : BitVec 64) :
    min 4095 (baseBits ch m + min 0 (drawLimit p occ)) ≤ allowedBits p occ cap ch m pe := by
  have hextra := min_drawLimit_le_extraBits hp occ cap (baseBits ch m) pe
  rw [allowedBits_eq]
  split <;> omega

end

theorem allowedBits_le (p : Params) (occ cap : Int) (ch : Channels) (m : BitVec 16) (pe : BitVec 64) :
    allowedBits p occ cap ch m pe ≤ 4095 := by
  have hbase := baseBits_range ch m
  rw [allowedBits_eq]
  split <;> omega

/-- With OCC not negative ALLOWED is from the share to the share and all that is banked. -/
theorem allowedBits_range_of_nonneg {p : Params} (hp : p.Legal) {occ cap : Int} (hocc : 0 ≤ occ) (hcap : 0 ≤ cap) (ch : Channels)
    (m : BitVec 16) (pe : BitVec 64) :
    baseBits ch m ≤ allowedBits p occ cap ch m pe ∧ allowedBits p occ cap ch m pe ≤ min (baseBits ch m + occ) 4095 := by
  have hbase := baseBits_range ch m
  have hextra := extraBits_range hp hocc hcap (baseBits ch m) pe
  rw [allowedBits_eq]
  split <;> omega

/-- ALLOWED fits its field of the response (R103). -/
theorem neg_two_pow_le_allowedBits {p : Params} (hp : p.Legal) {occ : Int} (hocc : -2 ^ 31 ≤ occ) (cap : Int) (ch : Channels)
    (m : BitVec 16) (pe : BitVec 64) : -2 ^ 31 ≤ allowedBits p occ cap ch m pe := by
  have hbase := baseBits_range ch m
  have hdraw := drawLimit_range hp occ
  have hge := allowedBits_ge hp occ cap ch m pe
  omega

theorem drawLimit_default_least : drawLimit Config.params (-2 ^ 31) = -1288490188 := by decide

/-- The least OCC with an unbounded wish answers the least ALLOWED of the default setting, below the share (R103). -/
theorem allowedBits_default_least :
    allowedBits Config.params (-2 ^ 31) 1 .mono 0#16 0x7FF0000000000000#64 = baseBits .mono 0#16 - 1288490188 := by
  have hbase := baseBits_range .mono 0#16
  rw [allowedBits_eq, if_neg (by decide), extraBits_eq, wanted_default_inf hbase.1 hbase.2, perceptualExtra, drawLimit_default_least]
  decide

/-- Settles O30: the range lemmas of the parts, and `allowedBits_default_least` for what is reached. -/
theorem allowedBounds : Obligations.AllowedBounds := by
  unfold Obligations.AllowedBounds
  simp only [← baseBits_eq]
  refine ⟨?_, ⟨1, .mono, 0#16, 0x7FF0000000000000#64, by decide, by decide, allowedBits_default_least⟩,
    ⟨1, -2 ^ 31, .mono, 0#16, 0x7FF0000000000000#64, by decide, by decide, by decide, ?_⟩⟩
  · intro p occ cap ch m pe hp hlow hup hcap _
    have hdraw := drawLimit_range hp occ
    refine ⟨allowedBits_le p occ cap ch m pe, fun h => by rw [allowedBits_eq, if_pos h], fun hocc => ?_, by omega,
      neg_two_pow_le_allowedBits hp hlow cap ch m pe, ?_⟩
    · obtain ⟨hextra0, hextra⟩ := extraBits_range hp hocc hcap (baseBits ch m) pe
      obtain ⟨hallowed0, hallowed⟩ := allowedBits_range_of_nonneg hp hocc hcap ch m pe
      exact ⟨hextra0, hextra, hallowed0, hallowed⟩
    · have hbase := baseBits_range ch m
      have hleast := drawLimit_mono legal_default_params hlow
      rw [drawLimit_default_least] at hleast
      have hge := allowedBits_ge legal_default_params occ cap ch m pe
      omega
  · rw [allowedBits_default_least]
    omega

/-! ### ALLOWED grows with the entropy (R98 to R101) -/

/-- `w` never draws more than `w'` where something is banked. -/
def Wish.AtMost (w w' : Wish) : Prop := ∀ q, 0 ≤ q → perceptualExtra w q ≤ perceptualExtra w' q

theorem noExtra_atMost_wanted {p : Params} (hp : p.Legal) (pe : BitVec 64) (base : Int) :
    Wish.AtMost .noExtra (wanted p pe base) := by
  intro q hq
  have := (perceptualExtra_range hp pe base q).1
  rwa [min_eq_left hq] at this

theorem wanted_atMost_unbounded {p : Params} (hp : p.Legal) (pe : BitVec 64) (base : Int) :
    Wish.AtMost (wanted p pe base) .unbounded := by
  intro q hq
  have := (perceptualExtra_range hp pe base q).2
  rwa [max_eq_right hq] at this

theorem wishAbove_atMost {wantMin w w' : Int} (hmin : 0 ≤ wantMin) (h : w ≤ w') :
    Wish.AtMost (wishAbove wantMin w) (wishAbove wantMin w') := by
  intro q hq
  unfold wishAbove
  split <;> split <;> simp only [perceptualExtra] <;> omega

theorem truncRounded_mono {d d' : Int} (h : d ≤ d') : truncRounded d ≤ truncRounded d' := by
  have hmono {n n' : Nat} (hn : n ≤ n') : F64.roundedMag n 1 / F64.one ≤ F64.roundedMag n' 1 / F64.one :=
    Nat.div_le_div_right (roundedMag_mono hn Nat.one_pos)
  rw [truncRounded_eq, truncRounded_eq]
  rcases lt_or_ge d 0 with hd | hd <;> rcases lt_or_ge d' 0 with hd' | hd'
  · rw [if_pos hd, if_pos hd']
    exact Int.neg_le_neg (Int.ofNat_le.mpr (hmono (by omega)))
  · rw [if_pos hd, if_neg hd'.not_gt]
    exact (Int.neg_nonpos_of_nonneg (Int.natCast_nonneg _)).trans (Int.natCast_nonneg _)
  · omega
  · rw [if_neg hd.not_gt, if_neg hd'.not_gt]
    exact Int.ofNat_le.mpr (hmono (by omega))

section
variable {p : Params} (hp : p.Legal) {pe pe' : BitVec 64} {base : Int} (h0 : 0 ≤ base) (h1 : base ≤ 4095)
include hp h0 h1

/-- Every step from a finite entropy to its wish keeps the order: product, rounding, difference, rounding, truncation. -/
theorem wanted_atMost_of_finite {mag mag' kMag : Nat} (hpe : F64.ofBits pe = .finite false mag)
    (hpe' : F64.ofBits pe' = .finite false mag') (hk : F64.ofBits p.kPe = .finite false kMag) (hmag : mag ≤ mag') :
    Wish.AtMost (wanted p pe base) (wanted p pe' base) := by
  have hprod := roundedMag_mono (Nat.mul_le_mul_right kMag hmag) f64_one_pos
  rcases Nat.lt_or_ge (F64.roundedMag (mag' * kMag) F64.one) F64.tooLarge with hfin | hbig
  · have hdiff : wishDifference false (F64.roundedMag (mag * kMag) F64.one) base ≤
        wishDifference false (F64.roundedMag (mag' * kMag) F64.one) base :=
      Int.sub_le_sub_right (Int.ofNat_le.mpr hprod) _
    have htrunc := truncRounded_mono hdiff
    rw [wanted_of_finite_product h0 h1 hpe' hk hfin, wanted_of_finite_product h0 h1 hpe hk (hprod.trans_lt hfin)]
    exact wishAbove_atMost hp.wantMin_nonneg htrunc
  · rw [wanted_of_infinite_product h0 h1 hpe' hk (by rw [round_eq_roundedMag, if_pos hbig])]
    exact wanted_atMost_unbounded hp pe base

theorem wanted_of_finite_times_zero {mag : Nat} (hpe : F64.ofBits pe = .finite false mag)
    (hk : F64.ofBits p.kPe = .finite false 0) : wanted p pe base = .noExtra := by
  have hzero : F64.roundedMag (mag * 0) F64.one = 0 := roundedMag_zero f64_one_pos
  have hdiff : wishDifference false 0 base ≤ 0 :=
    Int.sub_nonpos_of_le (mul_nonneg h0 (Int.natCast_nonneg F64.one))
  have htrunc := truncRounded_mono hdiff
  rw [truncRounded_zero] at htrunc
  rw [wanted_of_finite_product h0 h1 hpe hk (by rw [hzero, F64.tooLarge]; positivity), hzero]
  exact if_neg (not_lt.mpr (htrunc.trans hp.wantMin_nonneg))

/-- A larger entropy never has a smaller wish. The product with +∞ is unbounded, or no wish at all where the other factor is 0. -/
theorem wanted_atMost (hk : p.kPe.toNat ≤ 0x7FF0000000000000) (h : pe.toNat ≤ pe'.toNat) (h' : pe'.toNat ≤ 0x7FF0000000000000) :
    Wish.AtMost (wanted p pe base) (wanted p pe' base) := by
  rcases h.eq_or_lt with heq | hlt
  · rw [BitVec.eq_of_toNat_eq heq]
    exact fun q _ => le_refl _
  have hpe := ofBits_of_lt_inf (hlt.trans_le h')
  by_cases hzero : F64.ZeroPattern p.kPe
  · have hkPe : F64.ofBits p.kPe = .finite false 0 := by rw [ofBits_of_zeroPattern hzero, getLsbD_of_le_inf hk]
    rw [wanted_of_finite_times_zero hp h0 h1 hpe hkPe]
    exact noExtra_atMost_wanted hp pe' base
  by_cases hinf : F64.InfPattern pe' ∨ F64.InfPattern p.kPe
  · have hne : ¬F64.ZeroPattern pe' := by
      rw [zeroPattern_iff_of_le_inf h']
      omega
    have hwish := wanted_of_inf_times_nonzero (p := p) (pe := pe') h0 h1
      (hinf.imp (⟨·, not_nanPattern_of_le_inf hk, hzero⟩) (⟨·, not_nanPattern_of_le_inf h', hne⟩))
    rw [hwish, if_pos (by rw [getLsbD_of_le_inf hk, getLsbD_of_le_inf h'])]
    exact wanted_atMost_unbounded hp pe base
  · rw [infPattern_iff_of_le_inf h', infPattern_iff_of_le_inf hk] at hinf
    exact wanted_atMost_of_finite hp h0 h1 hpe (ofBits_of_lt_inf (by omega)) (ofBits_of_lt_inf (by omega))
      (patternMag_mono h (by omega))

end

/-- Settles O32: a larger wish gives a larger extra at the same draw limit, which is not negative. -/
theorem allowedGrowsWithEntropy : Obligations.AllowedGrowsWithEntropy := by
  unfold Obligations.AllowedGrowsWithEntropy
  intro p occ cap ch m pe pe' hp hocc _ hk h h'
  have hbase := baseBits_range ch m
  have hdraw : 0 ≤ drawLimit p occ := (le_min le_rfl hocc).trans (drawLimit_range hp occ).1
  have hextra := wanted_atMost hp hbase.1 hbase.2 hk h h' _ hdraw
  rw [allowedBits_eq, allowedBits_eq, extraBits_eq, extraBits_eq]
  split <;> omega

/-! ### What `exec` answers in GRANULE_LOOP (R95, R104, R105) -/

section
variable {s : State} (hphase : s.phase = .granuleLoop) (ch : Channels) (m : BitVec 16)
include hphase

theorem exec_maxBits_of_granuleLoop (pe : BitVec 64) :
    exec (.maxBits ch m pe) s =
      .next (respond .maxBits (allowedPayload (allowedBits s.params s.occInt s.capInt ch m pe)) s) := by
  rw [exec_eq_next_commit, commit_maxBits, guarded_of_legal (by rw [hphase]; rfl)]
  rfl

theorem exec_adjust_of_granuleLoop (cl : BitVec 12) : exec (.adjust ch m cl) s = .next (adjustBody ch m cl s) := by
  rw [exec_eq_next_commit, commit_adjust, guarded_of_legal (by rw [hphase]; rfl)]

theorem exec_adjust_of_fits {cl : BitVec 12} (hlow : -2 ^ 31 ≤ adjusted s.occInt ch m cl)
    (hup : adjusted s.occInt ch m cl ≤ 2 ^ 31 - 1) :
    exec (.adjust ch m cl) s = .next (respond .adjust 0#112 (s.setOcc (adjusted s.occInt ch m cl))) := by
  rw [exec_adjust_of_granuleLoop hphase, adjustBody, if_pos ((fitsOcc_iff _).mpr ⟨hlow, hup⟩)]

theorem exec_adjust_of_overflow {cl : BitVec 12} (h : adjusted s.occInt ch m cl < -2 ^ 31 ∨ 2 ^ 31 - 1 < adjusted s.occInt ch m cl) :
    exec (.adjust ch m cl) s = .next (raiseFault .ovf .adjust s) := by
  rw [exec_adjust_of_granuleLoop hphase, adjustBody, if_neg (by rw [fitsOcc_iff]; omega)]

end

/-! ### The response of MAX_BITS (R70, R101) -/

/-- ALLOWED is read back from the response whole. -/
theorem sext_enc_allowedBits {s : State} (hp : s.params.Legal) (ch : Channels) (m : BitVec 16) (pe : BitVec 64) :
    sext (enc 32 (allowedBits s.params s.occInt s.capInt ch m pe)) = allowedBits s.params s.occInt s.capInt ch m pe := by
  have hle := allowedBits_le s.params s.occInt s.capInt ch m pe
  exact sext_enc (neg_two_pow_le_allowedBits hp (sext_range s.occ).1 _ ch m pe) (by omega)

theorem allowedPayload_high (v : Int) : (allowedPayload v).extractLsb' 32 80 = 0#80 :=
  (extract_append_high 0#80 (enc 32 v) (by decide)).trans (extract_all _)

/-- Settles O27: the answer of `exec_maxBits_of_granuleLoop`, with the fields of its response word. -/
theorem maxBitsAnswersAllowed : Obligations.MaxBitsAnswersAllowed := by
  unfold Obligations.MaxBitsAnswersAllowed
  intro ch m pe s hphase hp
  obtain ⟨hst, hraised, hope, hzero, -⟩ :=
    responseWord_fields .none false .maxBits (allowedPayload (allowedBits s.params s.occInt s.capInt ch m pe))
  refine ⟨_, exec_maxBits_of_granuleLoop hphase ch m pe, ?_, hst, hraised, hope, hzero, ?_⟩
  · rw [rwAllowed_responseWord, sext_enc_allowedBits hp, allowedBits_eq, extraBits_eq, ← baseBits_eq]
    rfl
  · rw [responseWord_extract _ _ _ _ (by decide)]
    exact allowedPayload_high _

/-- The response word of a small ALLOWED as a number: OPE is 1, and ALLOWED stands from bit 16 on (R70). -/
theorem responseWord_maxBits_ofNat {n : Nat} (h : n < 2 ^ 32) :
    responseWord .none false .maxBits (allowedPayload n) = BitVec.ofNat 128 (8 + 65536 * n) := by
  apply BitVec.eq_of_toNat_eq
  unfold responseWord allowedPayload enc
  simp only [BitVec.toNat_append]
  rw [← Nat.shiftLeft_add_eq_or_of_lt (BitVec.isLt _), ← Nat.shiftLeft_add_eq_or_of_lt (BitVec.isLt _),
    ← Nat.shiftLeft_add_eq_or_of_lt (BitVec.isLt _), ← Nat.shiftLeft_add_eq_or_of_lt (BitVec.isLt _),
    ← Nat.shiftLeft_add_eq_or_of_lt (BitVec.isLt _)]
  simp [Nat.shiftLeft_eq, Opcode.code, FaultCode.code]
  omega

/-- Settles O28: with CAP = 0 ALLOWED is the clipped share, a small number. -/
theorem noCapacityNoBorrowing : Obligations.NoCapacityNoBorrowing := by
  unfold Obligations.NoCapacityNoBorrowing
  intro ch m pe s hphase hcap
  have hbase : allowedBits s.params s.occInt s.capInt ch m pe =
      ((min (m.toNat / (if ch = .stereo then 2 else 1)) 4095 : Nat) : Int) := by
    rw [allowedBits_eq, if_pos (by rw [State.capInt, hcap]; rfl), baseBits_eq]
    push_cast
    rfl
  rw [exec_maxBits_of_granuleLoop hphase, hbase, ← responseWord_maxBits_ofNat (by omega)]
  rfl

/-! ### ADJUST (R104, R105) -/

theorem responseWord_adjust_zero : responseWord .none false .adjust 0#112 = 0x10#128 := by decide

theorem responseWord_adjust_ovf : responseWord .ovf true .adjust 0#112 = 0x17#128 := by decide

/-- Settles O34: the two answers of ADJUST, by whether the exact result fits OCC. -/
theorem adjustCommitsOrOverflows : Obligations.AdjustCommitsOrOverflows := by
  unfold Obligations.AdjustCommitsOrOverflows
  intro ch m cl s hphase
  have hv : s.occ.toInt + (m.toNat : Int) / (if ch = .stereo then 2 else 1) - (cl.toNat : Int) = adjusted s.occInt ch m cl := by
    rw [adjusted, share_eq_ite]
    rfl
  rw [hv]
  refine ⟨fun hlow hup => ⟨_, exec_adjust_of_fits hphase ch m hlow hup, ?_, sext_enc hlow hup⟩, fun h => ?_⟩
  · rw [← responseWord_adjust_zero]
    rfl
  · rw [exec_adjust_of_overflow hphase ch m h, ← responseWord_adjust_ovf]
    rfl

theorem adjusted_range (occ : Int) (ch : Channels) (m : BitVec 16) (cl : BitVec 12) :
    occ - 4095 ≤ adjusted occ ch m cl ∧ adjusted occ ch m cl ≤ occ + 65535 := by
  have hshare := share_range ch m
  have hcl0 := zext_nonneg cl
  have hcl := zext_lt cl
  unfold adjusted
  omega

/-- With room for every slot's largest credit and largest cost, no slot of a list overflows (R105). -/
theorem afterGranules_of_room (gs : List GranuleCall) {s : State} (hphase : s.phase = .granuleLoop)
    (hlow : -2 ^ 31 + 4095 * gs.length ≤ s.occInt) (hup : s.occInt + 65535 * gs.length ≤ 2 ^ 31 - 1) :
    (afterGranules gs s).phase = .granuleLoop ∧ (afterGranules gs s).fault = s.fault ∧ (afterGranules gs s).cap = s.cap := by
  induction gs generalizing s with
  | nil => exact ⟨hphase, rfl, rfl⟩
  | cons g gs ih =>
    rw [List.length_cons] at hlow hup
    have hrange := adjusted_range s.occInt g.ch g.m g.cl
    have hfits : -2 ^ 31 ≤ adjusted s.occInt g.ch g.m g.cl ∧ adjusted s.occInt g.ch g.m g.cl ≤ 2 ^ 31 - 1 := by omega
    have hocc := sext_enc hfits.1 hfits.2
    have hmax := exec_maxBits_of_granuleLoop hphase g.ch g.m g.pe
    have hadj (x : BitVec 112) := exec_adjust_of_fits (s := respond .maxBits x s) (cl := g.cl) hphase g.ch g.m hfits.1 hfits.2
    simp only [exec_eq_next_commit, Host.Outcome.next.injEq] at hmax hadj
    rw [afterGranules, hmax, hadj]
    rw [← hocc] at hrange
    exact ih hphase (le_trans (by omega) hrange.1) (le_trans (Int.add_le_add_right hrange.2 _) (by omega))

/-- Settles O35: 32768 slots have room from an OCC of 0 to 4088. -/
theorem noOverflowWithinSlotBudget : Obligations.NoOverflowWithinSlotBudget := by
  unfold Obligations.NoOverflowWithinSlotBudget
  intro gs s hphase hfault hlow hup hlen
  obtain ⟨hphase', hfault', hcap'⟩ := afterGranules_of_room gs hphase (by omega) (by omega)
  exact ⟨hphase', hfault'.trans hfault, hcap'⟩

/-- A cost that the share and what is banked cover leaves OCC not negative; an overflow leaves it as it is. -/
theorem exec_adjust_occ_nonneg {s : State} (hphase : s.phase = .granuleLoop) (ch : Channels) (m : BitVec 16) {cl : BitVec 12}
    (hocc : 0 ≤ s.occInt) (hcl : zext cl ≤ s.occInt + share ch m) :
    ∃ u, exec (.adjust ch m cl) s = .next u ∧ 0 ≤ u.occInt := by
  have hnonneg : 0 ≤ adjusted s.occInt ch m cl := Int.sub_nonneg_of_le hcl
  rw [exec_adjust_of_granuleLoop hphase]
  refine ⟨_, rfl, ?_⟩
  rcases adjustBody_cases ch m cl s with ⟨hfits, hbody⟩ | ⟨-, hbody⟩ <;> rw [hbody]
  · have hread := sext_enc (by omega) ((fitsOcc_iff _).mp hfits).2
    exact hnonneg.trans_eq hread.symm
  · exact hocc

/-- Settles O36: ALLOWED is at most the share and what is banked (R103), so the cost is covered. -/
theorem disciplineKeepsOccupancyNonnegative : Obligations.DisciplineKeepsOccupancyNonnegative := by
  unfold Obligations.DisciplineKeepsOccupancyNonnegative
  intro ch m pe cl s hphase hp hocc
  have hallowed := (allowedBits_range_of_nonneg hp (occ := s.occInt) hocc (zext_nonneg s.cap) ch m pe).2
  have hbase : baseBits ch m ≤ share ch m := min_le_left _ _
  refine ⟨_, _, exec_maxBits_of_granuleLoop hphase ch m pe, rfl, fun hcl => ?_⟩
  rw [rwAllowed_responseWord, sext_enc_allowedBits hp] at hcl
  refine exec_adjust_occ_nonneg (s := respond .maxBits _ s) hphase ch m hocc ?_
  calc zext cl ≤ allowedBits s.params s.occInt s.capInt ch m pe := hcl
    _ ≤ baseBits ch m + s.occInt := hallowed.trans (min_le_left _ _)
    _ ≤ s.occInt + share ch m := by omega

end Sys2Proof.Machine
end

section
/-! PROOFS. 42_end_frame.md: Plan B slot by slot, the distribution as Plan B alone (R126 to R129, R134), the conservation of bits (R132,
R133), and what `exec` answers to an END_FRAME (R120 to R124, R130, R131). -/

namespace Sys2Proof.Machine

/-! ### The room in the slots, and one slot filled (R128) -/

/-- What slot `k` can still take. -/
def room (t : Slots) (k : Fin 4) : Int := Config.fieldMax - zext (slotOf t k)

/-- What the slots of a list can still take together. -/
def roomIn (t : Slots) (l : List (Fin 4)) : Int := (l.map (room t)).sum

/-- The vector with slot `k` given as much of `rem` as it has room for: one turn of Plan B. -/
def fillSlot (t : Slots) (k : Fin 4) (rem : Int) : Slots := withSlot t k (enc 12 (zext (slotOf t k) + min (room t k) rem))

theorem room_nonneg (t : Slots) (k : Fin 4) : 0 ≤ room t k := Int.sub_nonneg_of_le (slotOf_range t k).2

theorem roomIn_nonneg (t : Slots) (l : List (Fin 4)) : 0 ≤ roomIn t l :=
  List.sum_nonneg (List.forall_mem_map.mpr fun k _ => room_nonneg t k)

@[simp] theorem roomIn_nil (t : Slots) : roomIn t [] = 0 := rfl

@[simp] theorem roomIn_cons (t : Slots) (k : Fin 4) (l : List (Fin 4)) : roomIn t (k :: l) = room t k + roomIn t l := rfl

theorem roomIn_congr {t u : Slots} {l : List (Fin 4)} (h : ∀ k ∈ l, slotOf t k = slotOf u k) : roomIn t l = roomIn u l := by
  rw [roomIn, List.map_congr_left fun k hk => by rw [room, h k hk, ← room], roomIn]

theorem zext_slotOf_fillSlot_same (t : Slots) (k : Fin 4) {rem : Int} (hrem : 0 ≤ rem) :
    zext (slotOf (fillSlot t k rem) k) = zext (slotOf t k) + min (room t k) rem := by
  have hslot := slotOf_range t k
  rw [fillSlot, slotOf_withSlot_same, room, Config.fieldMax]
  exact zext_enc (by omega) (by omega)

theorem slotOf_fillSlot_ne (t : Slots) {k j : Fin 4} (h : k ≠ j) (rem : Int) : slotOf (fillSlot t k rem) j = slotOf t j :=
  slotOf_withSlot_ne t h _

theorem room_fillSlot_ne (t : Slots) {k j : Fin 4} (h : k ≠ j) (rem : Int) : room (fillSlot t k rem) j = room t j := by
  rw [room, slotOf_fillSlot_ne t h, room]

theorem roomIn_fillSlot {k : Fin 4} {l : List (Fin 4)} (h : k ∉ l) (t : Slots) (rem : Int) :
    roomIn (fillSlot t k rem) l = roomIn t l :=
  roomIn_congr fun _ hj => slotOf_fillSlot_ne t (ne_of_mem_of_not_mem hj h).symm rem

theorem withSlot_slotOf (t : Slots) (k : Fin 4) : withSlot t k (slotOf t k) = t := by fin_cases k <;> rfl

theorem fillSlot_zero (t : Slots) (k : Fin 4) : fillSlot t k 0 = t := by
  rw [fillSlot, min_eq_right (room_nonneg t k), add_zero, enc_zext, withSlot_slotOf]

/-! ### Plan B (R128, R129) -/

@[simp] theorem planB_zero (l : List (Fin 4)) (t : Slots) : planB l t 0 = (t, 0) := by
  cases l <;> simp [planB]

/-- Plan B as a plain recursion: its stop at a remainder of 0 is a fill of nothing in every slot left. -/
theorem planB_cons (k : Fin 4) (l : List (Fin 4)) (t : Slots) (rem : Int) :
    planB (k :: l) t rem = planB l (fillSlot t k rem) (rem - min (room t k) rem) := by
  by_cases hrem : rem = 0
  · rw [hrem, min_eq_right (room_nonneg t k), sub_zero, planB_zero, planB_zero, fillSlot_zero]
  · rw [planB, if_neg hrem]
    rfl

/-- Plan B stops at its first slot where the whole remainder fits it, which is Plan A's result (R134). -/
theorem planB_of_fits {t : Slots} {k : Fin 4} {rem : Int} (h : zext (slotOf t k) + rem ≤ 4095) (l : List (Fin 4)) :
    planB (k :: l) t rem = (withSlot t k (enc 12 (zext (slotOf t k) + rem)), 0) := by
  have hmin : min (room t k) rem = rem := by
    unfold room Config.fieldMax
    omega
  rw [planB_cons, hmin, sub_self, planB_zero, fillSlot, hmin]

/-- What is left after one slot never becomes negative. -/
theorem sub_min_room_nonneg (t : Slots) (k : Fin 4) (rem : Int) : 0 ≤ rem - min (room t k) rem :=
  Int.sub_nonneg_of_le (min_le_right _ _)

theorem slotOf_planB_of_not_mem {l : List (Fin 4)} {k : Fin 4} (hk : k ∉ l) (t : Slots) (rem : Int) :
    slotOf (planB l t rem).1 k = slotOf t k := by
  induction l generalizing t rem with
  | nil => rfl
  | cons j l ih =>
    rw [List.mem_cons, not_or] at hk
    rw [planB_cons, ih hk.2, slotOf_fillSlot_ne t (Ne.symm hk.1)]

/-- What one slot leaves of the remainder, less the room of others, is the remainder less all their room. -/
theorem max_sub_min_room (t : Slots) (k : Fin 4) (l : List (Fin 4)) (rem : Int) :
    max 0 (rem - min (room t k) rem - roomIn t l) = max 0 (rem - roomIn t (k :: l)) := by
  have hroom := roomIn_nonneg t l
  rw [roomIn_cons]
  omega

theorem planB_drain {l : List (Fin 4)} (hl : l.Nodup) (t : Slots) {rem : Int} (hrem : 0 ≤ rem) :
    (planB l t rem).2 = max 0 (rem - roomIn t l) := by
  induction l generalizing t rem with
  | nil => simpa [planB] using hrem
  | cons k l ih =>
    obtain ⟨hk, hl⟩ := List.nodup_cons.mp hl
    rw [planB_cons, ih hl _ (sub_min_room_nonneg t k rem), roomIn_fillSlot hk, max_sub_min_room]

theorem zext_slotOf_planB {before after : List (Fin 4)} {k : Fin 4} (hl : (before ++ k :: after).Nodup) (t : Slots) {rem : Int}
    (hrem : 0 ≤ rem) :
    zext (slotOf (planB (before ++ k :: after) t rem).1 k) =
      zext (slotOf t k) + min (room t k) (max 0 (rem - roomIn t before)) := by
  induction before generalizing t rem with
  | nil =>
    rw [List.nil_append, planB_cons, slotOf_planB_of_not_mem (List.nodup_cons.mp hl).1, zext_slotOf_fillSlot_same t k hrem,
      roomIn_nil, sub_zero, max_eq_right hrem]
  | cons j before ih =>
    rw [List.cons_append, List.nodup_cons] at hl
    obtain ⟨hj, hl⟩ := hl
    obtain ⟨hjbefore, hjk⟩ : j ∉ before ∧ j ≠ k := by
      simp only [List.mem_append, List.mem_cons, not_or] at hj
      exact ⟨hj.1, hj.2.1⟩
    rw [List.cons_append, planB_cons, ih hl _ (sub_min_room_nonneg t j rem), slotOf_fillSlot_ne t hjk, room_fillSlot_ne t hjk,
      roomIn_fillSlot hjbefore, max_sub_min_room]

/-! ### The distribution is Plan B (R127, R134) -/

theorem activeSlots_nodup (ver : Version) (ch : Channels) : (activeSlots ver ch).Nodup :=
  List.Nodup.filter _ (by decide)

/-- Slot (0,0) is active, and the first, for every version and channel count (R126). -/
theorem activeSlots_eq_cons (ver : Version) (ch : Channels) : ∃ rest, activeSlots ver ch = 0 :: rest := by
  cases ver <;> cases ch <;> exact ⟨_, rfl⟩

theorem distribute_of_nonpos {budget : Int} (h : budget ≤ 0) (ver : Version) (ch : Channels) (t : Slots) :
    distribute ver ch t budget = (t, 0) := if_neg h.not_gt

/-- Plan A is what Plan B does where the budget fits slot (0,0), and a budget of 0 fills nothing. -/
theorem distribute_eq_planB (ver : Version) (ch : Channels) (t : Slots) {budget : Int} (h : 0 ≤ budget) :
    distribute ver ch t budget = planB (activeSlots ver ch) t budget := by
  rcases h.eq_or_lt with rfl | hpos
  · rw [distribute_of_nonpos le_rfl, planB_zero]
  by_cases hfits : zext (slotOf t 0) + budget < 4095
  · obtain ⟨rest, hrest⟩ := activeSlots_eq_cons ver ch
    rw [hrest, planB_of_fits hfits.le, distribute, if_pos hpos, Config.fieldMax, if_pos hfits]
  · rw [distribute, if_pos hpos, Config.fieldMax, if_neg hfits]

/-- Settles O43: `planB_of_fits` up to 4095, at 4095 the distribution is Plan B, and past it slot (0,0) takes all its room. -/
theorem plansMeetWithoutGap : Obligations.PlansMeetWithoutGap := by
  unfold Obligations.PlansMeetWithoutGap
  intro ver ch t budget hpos
  obtain ⟨rest, hrest⟩ := activeSlots_eq_cons ver ch
  have hnodup := activeSlots_nodup ver ch
  rw [distribute_eq_planB ver ch t hpos.le]
  rw [hrest] at hnodup ⊢
  refine ⟨fun h => planB_of_fits h rest, fun h => ?_, fun h => ?_⟩
  · have hfull : zext (slotOf t 0) + budget = 4095 := h
    rw [planB_of_fits hfull.le, hfull]
    rfl
  · have hfilled := zext_slotOf_planB (before := []) hnodup t hpos.le
    rw [roomIn_nil, room, Config.fieldMax] at hfilled
    unfold zext at hfilled
    refine BitVec.eq_of_toNat_eq (Int.ofNat_inj.mp (hfilled.trans ?_))
    rw [BitVec.toNat_ofNat]
    omega

theorem drain_distribute (ver : Version) (ch : Channels) (t : Slots) {budget : Int} (h : 0 ≤ budget) :
    (distribute ver ch t budget).2 = max 0 (budget - roomIn t (activeSlots ver ch)) := by
  rw [distribute_eq_planB ver ch t h, planB_drain (activeSlots_nodup ver ch) t h]

/-- Settles O41: `drain_distribute` with the room written out. -/
theorem drainIsWhatNoSlotTakes : Obligations.DrainIsWhatNoSlotTakes :=
  fun ver ch t _ h => drain_distribute ver ch t h

theorem zext_slotOf_distribute {ver : Version} {ch : Channels} {before after : List (Fin 4)} {k : Fin 4}
    (hsplit : activeSlots ver ch = before ++ k :: after) (t : Slots) {budget : Int} (h : 0 ≤ budget) :
    zext (slotOf (distribute ver ch t budget).1 k) =
      zext (slotOf t k) + min (room t k) (max 0 (budget - roomIn t before)) := by
  rw [distribute_eq_planB ver ch t h, hsplit, zext_slotOf_planB (hsplit ▸ activeSlots_nodup ver ch) t h]

/-- Settles O42: `zext_slotOf_distribute` with the room written out. -/
theorem slotsFillInOrder : Obligations.SlotsFillInOrder :=
  fun _ _ t _ _ _ _ h hsplit => zext_slotOf_distribute hsplit t h

theorem slotOf_distribute_inactive {ver : Version} {ch : Channels} {k : Fin 4} (hk : k ∉ activeSlots ver ch) (t : Slots)
    (budget : Int) : slotOf (distribute ver ch t budget).1 k = slotOf t k := by
  rcases le_or_gt 0 budget with h | h
  · rw [distribute_eq_planB ver ch t h, slotOf_planB_of_not_mem hk]
  · rw [distribute_of_nonpos h.le]

/-- Drain and new values are functions of the active slots alone: so say `drain_distribute` and `zext_slotOf_distribute`. -/
theorem distribute_congr {ver : Version} {ch : Channels} {t u : Slots} (h : ∀ k ∈ activeSlots ver ch, slotOf t k = slotOf u k)
    (budget : Int) :
    (distribute ver ch t budget).2 = (distribute ver ch u budget).2 ∧
    ∀ k ∈ activeSlots ver ch, slotOf (distribute ver ch t budget).1 k = slotOf (distribute ver ch u budget).1 k := by
  rcases lt_or_ge budget 0 with hneg | hnonneg
  · rw [distribute_of_nonpos hneg.le, distribute_of_nonpos hneg.le]
    exact ⟨rfl, h⟩
  refine ⟨by rw [drain_distribute ver ch t hnonneg, drain_distribute ver ch u hnonneg, roomIn_congr h], fun k hk => ?_⟩
  obtain ⟨before, after, hsplit⟩ := List.append_of_mem hk
  have hbefore : roomIn t before = roomIn u before :=
    roomIn_congr fun j hj => h j (hsplit ▸ List.mem_append_left _ hj)
  rw [← enc_zext (slotOf (distribute ver ch t budget).1 k), zext_slotOf_distribute hsplit t hnonneg, hbefore, room, h k hk, ← room,
    ← zext_slotOf_distribute hsplit u hnonneg, enc_zext]

/-- Settles O40: the table of R126, `slotOf_distribute_inactive` and `distribute_congr`. -/
theorem inactiveSlotsUntouched : Obligations.InactiveSlotsUntouched :=
  ⟨by decide, by decide, by decide, by decide, fun _ _ t budget _ hk => slotOf_distribute_inactive hk t budget,
    fun _ _ _ _ budget h => distribute_congr h budget⟩

/-! ### Conservation (R132, R133) -/

/-- The bits that the four slots hold together. -/
def totalBits (t : Slots) : Int := zext t.s0 + zext t.s1 + zext t.s2 + zext t.s3

theorem totalBits_withSlot (t : Slots) (k : Fin 4) (v : BitVec 12) :
    totalBits (withSlot t k v) = totalBits t - zext (slotOf t k) + zext v := by
  fin_cases k <;> simp only [withSlot, slotOf, totalBits] <;> ring

theorem totalBits_fillSlot (t : Slots) (k : Fin 4) {rem : Int} (hrem : 0 ≤ rem) :
    totalBits (fillSlot t k rem) = totalBits t + min (room t k) rem := by
  have hfilled := zext_slotOf_fillSlot_same t k hrem
  rw [fillSlot, slotOf_withSlot_same] at hfilled
  rw [fillSlot, totalBits_withSlot, hfilled]
  ring

/-- Every turn of Plan B moves bits from the remainder to a slot. -/
theorem totalBits_planB (l : List (Fin 4)) (t : Slots) {rem : Int} (hrem : 0 ≤ rem) :
    totalBits (planB l t rem).1 + (planB l t rem).2 = totalBits t + rem := by
  induction l generalizing t rem with
  | nil => rfl
  | cons k l ih =>
    rw [planB_cons, ih _ (sub_min_room_nonneg t k rem), totalBits_fillSlot t k hrem]
    ring

theorem totalBits_distribute (ver : Version) (ch : Channels) (t : Slots) {budget : Int} (h : 0 ≤ budget) :
    totalBits (distribute ver ch t budget).1 + (distribute ver ch t budget).2 = totalBits t + budget := by
  rw [distribute_eq_planB ver ch t h, totalBits_planB _ t h]

theorem zext_slotOf_le_distribute (ver : Version) (ch : Channels) (t : Slots) {budget : Int} (h : 0 ≤ budget) (k : Fin 4) :
    zext (slotOf t k) ≤ zext (slotOf (distribute ver ch t budget).1 k) := by
  by_cases hk : k ∈ activeSlots ver ch
  · obtain ⟨before, after, hsplit⟩ := List.append_of_mem hk
    rw [zext_slotOf_distribute hsplit t h]
    exact le_add_of_nonneg_right (le_min (room_nonneg t k) (le_max_left _ _))
  · rw [slotOf_distribute_inactive hk]

theorem drain_distribute_range (ver : Version) (ch : Channels) (t : Slots) {budget : Int} (h : 0 ≤ budget) :
    0 ≤ (distribute ver ch t budget).2 ∧ (distribute ver ch t budget).2 ≤ budget := by
  have hroom := roomIn_nonneg t (activeSlots ver ch)
  rw [drain_distribute ver ch t h]
  omega

/-- Plan A's result, for a budget of 0 as well. -/
theorem distribute_of_fits {ver : Version} {ch : Channels} {t : Slots} {budget : Int} (h : 0 ≤ budget)
    (hfits : zext (slotOf t 0) + budget < 4095) :
    (distribute ver ch t budget).2 = 0 ∧ zext (slotOf (distribute ver ch t budget).1 0) = zext (slotOf t 0) + budget := by
  have hslot := slotOf_range t 0
  obtain ⟨rest, hrest⟩ := activeSlots_eq_cons ver ch
  rw [distribute_eq_planB ver ch t h, hrest, planB_of_fits hfits.le, slotOf_withSlot_same]
  exact ⟨rfl, zext_enc (by omega) (by omega)⟩

/-! ### What `exec` answers to an END_FRAME (R120 to R124, R130, R131) -/

theorem floor8_eq_sub_mod (a : Int) : floor8 a = a - a % 8 := by
  unfold floor8
  omega

theorem stuffingBudget_range (s : State) (ch : Channels) (m : BitVec 16) :
    0 ≤ s.stuffingBudget ch m ∧ s.stuffingBudget ch m < 2 ^ 32 := by
  have hocc : s.occInt ≤ 2 ^ 31 - 1 := (sext_range s.occ).2
  have hpar := (parityBit_range ch m).2
  have hcap : 0 ≤ s.capInt := zext_nonneg s.cap
  unfold State.stuffingBudget State.trimmedOcc floor8
  omega

/-- OCC with the parity bit is the new OCC and the budget (R132). -/
theorem trimmedOcc_add_stuffingBudget (s : State) (ch : Channels) (m : BitVec 16) :
    s.trimmedOcc ch m + s.stuffingBudget ch m = s.occInt + parityBit ch m := add_sub_cancel _ _

theorem exec_endFrame_of_granuleLoop {s : State} (hphase : s.phase = .granuleLoop) (ver : Version) (ch : Channels) (m : BitVec 16)
    (slots : Slots) :
    exec (.endFrame ver ch m slots) s =
      .next (respond .endFrame
        (slotsPayload (distribute ver ch slots (s.stuffingBudget ch m)).1 (distribute ver ch slots (s.stuffingBudget ch m)).2)
        ((s.setOcc (s.trimmedOcc ch m)).setPhase .frameDone)) := by
  rw [exec_eq_next_commit, commit_endFrame, guarded_of_legal (by rw [hphase]; rfl), endFrameBody_eq]

/-- DRAIN is read back from the response whole. -/
theorem zext_enc_drain (ver : Version) (ch : Channels) (m : BitVec 16) (slots : Slots) (s : State) :
    zext (enc 32 (distribute ver ch slots (s.stuffingBudget ch m)).2) =
      (distribute ver ch slots (s.stuffingBudget ch m)).2 := by
  obtain ⟨hbudget0, hbudget⟩ := stuffingBudget_range s ch m
  obtain ⟨hdrain0, hdrain⟩ := drain_distribute_range ver ch slots hbudget0
  exact zext_enc hdrain0 (hdrain.trans_lt hbudget)

/-- Settles O37: the answer of `exec_endFrame_of_granuleLoop`, with OCC and the fields of its response word read back. -/
theorem endFrameClosesFrame : Obligations.EndFrameClosesFrame := by
  unfold Obligations.EndFrameClosesFrame
  intro ver ch m slots s hphase
  have hocc : (enc 32 (s.trimmedOcc ch m)).toInt = s.trimmedOcc ch m := sext_enc_trimmedOcc s ch m
  obtain ⟨hst, hraised, hope, hzero, -⟩ := responseWord_fields .none false .endFrame
    (slotsPayload (distribute ver ch slots (s.stuffingBudget ch m)).1 (distribute ver ch slots (s.stuffingBudget ch m)).2)
  refine ⟨_, _, exec_endFrame_of_granuleLoop hphase ver ch m slots, rfl, ?_, hst, hraised, hope, hzero,
    (rwZeroHigh_responseWord _ _ _).2.2 _ _⟩
  dsimp only
  rw [← parityBit_eq, respond_occ, setPhase_occ, setOcc_occ, hocc, rwSlots_responseWord, rwDrain_responseWord, zext_enc_drain]
  exact ⟨floor8_eq_sub_mod _, rfl, rfl⟩

/-- Settles O38: the budget is `State.stuffingBudget`; the rest is said of `distribute` above. -/
theorem endFrameConservesBits : Obligations.EndFrameConservesBits := by
  unfold Obligations.EndFrameConservesBits
  intro ver ch m slots s hphase
  have hocc : (enc 32 (s.trimmedOcc ch m)).toInt = s.trimmedOcc ch m := sext_enc_trimmedOcc s ch m
  have hbudget := (stuffingBudget_range s ch m).1
  have hgrows (k : Fin 4) := Int.ofNat_le.mp (zext_slotOf_le_distribute ver ch slots hbudget k)
  have htotal := totalBits_distribute ver ch slots hbudget
  refine ⟨_, _, exec_endFrame_of_granuleLoop hphase ver ch m slots, rfl, ?_⟩
  dsimp only
  rw [← parityBit_eq, respond_occ, setPhase_occ, setOcc_occ, hocc, rwSlots_responseWord, rwDrain_responseWord, zext_enc_drain]
  refine ⟨⟨s.stuffingBudget ch m, hbudget, (trimmedOcc_add_stuffingBudget s ch m).symm, ?_,
    (drain_distribute_range ver ch slots hbudget).1, distribute_of_fits hbudget⟩, hgrows 0, hgrows 1, hgrows 2, hgrows 3⟩
  unfold totalBits zext at htotal
  push_cast
  omega

end Sys2Proof.Machine
end

section
/-! PROOFS. 60_exceptions.md: the prologue (R146), raised faults (R147), the table of phases (R148), PHASE = FAULT (R154, R155), the idle
block (R163), and the host discipline over whole frames (R149). -/

namespace Sys2Proof.Machine

/-! ### The prologue (R146) -/

section
variable {s t : State} {i : Instr}

theorem commit_eq_of_exec (h : exec i s = .next t) : commit i s = t :=
  Host.Outcome.next.inj ((exec_eq_next_commit i s).symm.trans h)

theorem commit_of_fault (i : Instr) (hphase : s.phase = .fault) : commit i s = reject i.opcode s := by
  cases i with
  | beginFrame | maxBits | adjust | endFrame => exact guarded_of_fault hphase

theorem commit_of_illegal (hphase : s.phase ≠ .fault) (hlegal : legal s.phase i.opcode = false) :
    commit i s = raiseFault .seq i.opcode s := by
  cases i with
  | beginFrame | maxBits | adjust | endFrame => exact guarded_of_illegal hphase hlegal

/-- Outside FAULT, GRANULE_LOOP refuses BEGIN_FRAME alone, and the phases between frames refuse everything else (R148). -/
theorem legal_eq_false_iff {p : Phase} (hp : p ≠ .fault) (op : Opcode) :
    legal p op = false ↔ (op = .beginFrame ↔ p = .granuleLoop) := by
  cases op with
  | beginFrame => cases p <;> simp [legal] at hp ⊢
  | maxBits | adjust | endFrame => rw [← Bool.not_eq_true, legal_granule_iff p (by simp)]; simp

end

/-- Settles O17: `commit_of_fault` and `commit_of_illegal`, with the fields of their response words. -/
theorem prologueRejectsOrRaisesSeq : Obligations.PrologueRejectsOrRaisesSeq := by
  unfold Obligations.PrologueRejectsOrRaisesSeq
  intro i s
  simp only [exec_eq_next_commit]
  refine ⟨fun hphase => ?_, fun hphase hinadmissible => ?_⟩
  · rw [commit_of_fault i hphase]
    exact ⟨_, rfl, responseWord_fields s.fault false i.opcode 0#112⟩
  · rw [commit_of_illegal hphase ((legal_eq_false_iff hphase i.opcode).mpr hinadmissible)]
    exact ⟨_, rfl, responseWord_fields .seq true i.opcode 0#112⟩

/-! ### The table of phases (R148) -/

section
variable {s : State}

theorem commit_beginFrame_phase_fault (hphase : s.phase = .frameStart ∨ s.phase = .frameDone) (ver : Version) (m fl ro : BitVec 16) :
    ((commit (.beginFrame ver m fl ro) s).phase = .granuleLoop ∧ (commit (.beginFrame ver m fl ro) s).fault = s.fault) ∨
    ((commit (.beginFrame ver m fl ro) s).phase = .fault ∧ (commit (.beginFrame ver m fl ro) s).fault = .desync) := by
  rw [commit_eq_of_exec (exec_beginFrame_of_legal hphase ver m fl ro)]
  rcases beginFrameBody_cases ver fl ro s with ⟨-, hbody⟩ | ⟨-, hbody⟩ <;> rw [hbody]
  · exact .inl ⟨rfl, rfl⟩
  · exact .inr ⟨rfl, rfl⟩

theorem commit_adjust_phase_fault (hphase : s.phase = .granuleLoop) (ch : Channels) (m : BitVec 16) (cl : BitVec 12) :
    ((commit (.adjust ch m cl) s).phase = .granuleLoop ∧ (commit (.adjust ch m cl) s).fault = s.fault) ∨
    ((commit (.adjust ch m cl) s).phase = .fault ∧ (commit (.adjust ch m cl) s).fault = .ovf) := by
  rw [commit_eq_of_exec (exec_adjust_of_granuleLoop hphase ch m cl)]
  rcases adjustBody_cases ch m cl s with ⟨-, hbody⟩ | ⟨-, hbody⟩ <;> rw [hbody]
  · exact .inl ⟨hphase, rfl⟩
  · exact .inr ⟨rfl, rfl⟩

end

/-- Settles O18, cell by cell: the prologue's two refusals, and what each command does in a phase that admits it. -/
theorem phaseTransitionTable : Obligations.PhaseTransitionTable := by
  unfold Obligations.PhaseTransitionTable
  intro i s
  refine ⟨commit i s, exec_eq_next_commit i s, ?_⟩
  have hseq (hphase : s.phase ≠ .fault) (hlegal : legal s.phase i.opcode = false) :
      (commit i s).phase = .fault ∧ (commit i s).fault = .seq := by
    rw [commit_of_illegal hphase hlegal]
    exact ⟨rfl, rfl⟩
  cases hphase : s.phase with
  | fault =>
    rw [commit_of_fault i hphase]
    exact ⟨hphase, rfl⟩
  | frameStart | frameDone =>
    cases i with
    | beginFrame ver m fl ro => exact commit_beginFrame_phase_fault (by simp [hphase]) ver m fl ro
    | maxBits | adjust | endFrame => exact hseq (by simp [hphase]) (by rw [hphase]; rfl)
  | granuleLoop =>
    cases i with
    | beginFrame => exact hseq (by simp [hphase]) (by rw [hphase]; rfl)
    | maxBits ch m pe =>
      rw [commit_eq_of_exec (exec_maxBits_of_granuleLoop hphase ch m pe)]
      exact ⟨hphase, rfl⟩
    | adjust ch m cl => exact commit_adjust_phase_fault hphase ch m cl
    | endFrame ver ch m slots =>
      rw [commit_eq_of_exec (exec_endFrame_of_granuleLoop hphase ver ch m slots)]
      exact ⟨rfl, rfl⟩

/-! ### Raised faults (R147) -/

theorem rwRaised_responseWord (c : FaultCode) (b : Bool) (op : Opcode) (x : BitVec 112) :
    rwRaised (responseWord c b op x) = b :=
  (responseWord_fields c b op x).2.1

/-- RAISED tells a raised fault from every other outcome of a command. -/
theorem Committed.eq_raiseFault {s t : State} {i : Instr} {rw : ResponseWord} (h : Committed s i t) (hport : t.port = .responding rw)
    (hraised : rwRaised rw = true) : ∃ c, c ≠ .none ∧ t = raiseFault c i.opcode s := by
  cases h with
  | raised _ c _ hcode => exact ⟨c, hcode, rfl⟩
  | rejected | beginFrame | maxBits | adjust | endFrame =>
    obtain rfl := Port.responding.inj hport
    rw [rwRaised_responseWord] at hraised
    cases hraised

/-- Settles O19: the response says that the command raised, so the state is `raiseFault`'s. -/
theorem raisedFaultsArePrecise : Obligations.RaisedFaultsArePrecise := by
  unfold Obligations.RaisedFaultsArePrecise
  intro i s t rw hexec hport hraised
  obtain ⟨c, hcode, rfl⟩ := (committed_of_exec hexec).eq_raiseFault hport hraised
  obtain rfl := Port.responding.inj hport
  obtain ⟨hst, -, hope, hzero, hpayload⟩ := responseWord_fields c true i.opcode 0#112
  exact ⟨rfl, hcode, hst, hope, hzero, hpayload⟩

/-! ### PHASE = FAULT (R154, R155) -/

/-- An edge without reset in PHASE = FAULT: the four registers stay, and a response that becomes valid repeats the code. -/
theorem step_of_fault {s t : State} (hphase : s.phase = .fault) (hrst : s.nextPins.rst = false) (hstep : step s = .next t) :
    t.fault = s.fault ∧ t.phase = .fault ∧ t.occ = s.occ ∧ t.cap = s.cap ∧
      ∀ rw, offered s = none → offered t = some rw → rwSt rw = s.fault.code ∧ rwRaised rw = false := by
  rcases statusChangesAtResponseOrReset s t hstep hrst with ⟨hocc, hcap, hphase', hfault, hoffer⟩ | ⟨cw, -, -, -, hexec⟩
  · refine ⟨hfault, hphase'.trans hphase, hocc, hcap, fun rw hs ht => ?_⟩
    rw [hs, or_self, ht] at hoffer
    cases hoffer
  · obtain rfl := (commit_of_fault (s := s.dropPins) (decode cw) hphase).symm.trans (commit_eq_of_exec hexec)
    refine ⟨rfl, hphase, rfl, rfl, fun rw _ ht => ?_⟩
    obtain rfl := Option.some.inj ht
    obtain ⟨hst, hraised, -⟩ := responseWord_fields s.fault false (decode cw).opcode 0#112
    exact ⟨hst, hraised⟩

/-- Settles O20: `step_of_fault` leaves only the reset edge. -/
theorem onlyResetLeavesFault : Obligations.OnlyResetLeavesFault := by
  unfold Obligations.OnlyResetLeavesFault
  intro s t hphase hstep hleft
  cases hrst : s.nextPins.rst with
  | false =>
    obtain ⟨-, hphase', -⟩ := step_of_fault hphase hrst hstep
    exact absurd hphase' hleft
  | true =>
    obtain rfl := Host.Outcome.next.inj ((step_of_rst hrst).symm.trans hstep)
    exact ⟨rfl, rfl, rfl⟩

/-- Settles O21: every edge has a next state, and `step_of_fault` says which. -/
theorem faultKeepsFirstCode : Obligations.FaultKeepsFirstCode := by
  unfold Obligations.FaultKeepsFirstCode
  intro s hphase hrst
  obtain ⟨t, hstep⟩ := step_total s
  exact ⟨t, hstep, step_of_fault hphase hrst hstep⟩

/-! ### The idle block (R163) -/

/-- Settles O13: nothing is due, and the edge that is left neither resets nor accepts. -/
theorem idleBlockHoldsItsState : Obligations.IdleBlockHoldsItsState := by
  unfold Obligations.IdleBlockHoldsItsState
  intro s hport hrst hvalid
  refine ⟨?_, (cmdReady_iff false s).mpr ⟨rfl, hport⟩⟩
  rw [step_of_not_due (by simp [hport])]
  simp [otherEdge, hport, hrst, hvalid, State.dropPins]

/-! ### The host discipline over whole frames (R149) -/

/-- A SAFE state within a frame that may still have `n` granule slots: no fault, OCC not negative, and room for the largest credit of
each of those slots (41_granule.md R105, R107). -/
structure State.WithinFrame (n : Nat) (s : State) : Prop where
  in_loop : s.phase = .granuleLoop
  no_fault : s.fault = .none
  params_legal : s.params.Legal
  occ_nonneg : 0 ≤ s.occInt
  room : s.occInt + 65535 * n ≤ 2 ^ 31 - 1

section
variable {s : State} {n : Nat}

/-- OCC is at most CAP between frames, so RO can say it and BEGIN_FRAME succeeds. -/
theorem State.BetweenFrames.withinFrame_afterBegin (hs : s.BetweenFrames) (hlegal : s.params.Legal) (f : FrameCall) (hn : n ≤ 32768) :
    (afterBegin f s).WithinFrame n := by
  have hocc : s.occInt < 2 ^ 12 := hs.occ_le_cap.trans_lt (zext_lt s.cap)
  have hro : zext (enc 16 s.occInt) = s.occInt := zext_enc hs.occ_nonneg (by omega)
  have hcommit := commit_eq_of_exec (exec_beginFrame_of_match hs.phase_between hro f.ver f.m f.fl)
  rw [afterBegin, hcommit]
  exact ⟨rfl, hs.no_fault, hlegal, hs.occ_nonneg, show s.occInt + _ ≤ _ by omega⟩

/-- The discipline keeps OCC from falling below 0 (R107), and the largest credit has room (R105). -/
theorem State.WithinFrame.withinFrame_slot (hs : s.WithinFrame (n + 1)) {g : GranuleCall}
    (hbound : ∀ rw, answer (.maxBits g.ch g.m g.pe) s = some rw → zext g.cl ≤ rwAllowed rw) :
    (commit (.adjust g.ch g.m g.cl) (commit (.maxBits g.ch g.m g.pe) s)).WithinFrame n := by
  obtain ⟨hphase, hfault, hlegal, hocc, hroom⟩ := hs
  have hrange := adjusted_range s.occInt g.ch g.m g.cl
  have hfits : -2 ^ 31 ≤ adjusted s.occInt g.ch g.m g.cl ∧ adjusted s.occInt g.ch g.m g.cl ≤ 2 ^ 31 - 1 := by omega
  obtain ⟨t, rw, hmax, hport, hadjust⟩ := disciplineKeepsOccupancyNonnegative g.ch g.m g.pe g.cl s hphase hlegal hocc
  obtain rfl := Host.Outcome.next.inj ((exec_maxBits_of_granuleLoop hphase g.ch g.m g.pe).symm.trans hmax)
  rw [answer, commit_eq_of_exec hmax] at hbound
  obtain ⟨u, hu, hnonneg⟩ := hadjust (hbound rw (offered_eq_some.mpr hport))
  obtain rfl := Host.Outcome.next.inj
    ((exec_adjust_of_fits (s := respond .maxBits _ s) hphase g.ch g.m hfits.1 hfits.2).symm.trans hu)
  rw [commit_eq_of_exec hmax, commit_eq_of_exec hu]
  have hread : sext (enc 32 (adjusted s.occInt g.ch g.m g.cl)) = adjusted s.occInt g.ch g.m g.cl := sext_enc hfits.1 hfits.2
  exact ⟨hphase, hfault, hlegal, hnonneg, show sext (enc 32 (adjusted s.occInt g.ch g.m g.cl)) + _ ≤ _ by omega⟩

theorem State.WithinFrame.withinFrame_afterGranules {gs : List GranuleCall} (hs : s.WithinFrame gs.length) (hbound : GranulesWithinBound gs s) :
    (afterGranules gs s).WithinFrame 0 := by
  induction gs generalizing s with
  | nil => exact hs
  | cons g gs ih => exact ih (hs.withinFrame_slot hbound.1) hbound.2

/-- END_FRAME trims OCC to a multiple of 8 from 0 to CAP. -/
theorem State.WithinFrame.betweenFrames_endFrame (hs : s.WithinFrame n) (ver : Version) (ch : Channels) (m : BitVec 16) (slots : Slots) :
    (commit (.endFrame ver ch m slots) s).BetweenFrames := by
  rw [commit_eq_of_exec (exec_endFrame_of_granuleLoop hs.in_loop ver ch m slots)]
  have hocc : sext (enc 32 (s.trimmedOcc ch m)) = s.trimmedOcc ch m := sext_enc_trimmedOcc s ch m
  have hnonneg : 0 ≤ s.trimmedOcc ch m := trimmedOcc_nonneg (Int.add_nonneg hs.occ_nonneg (parityBit_range ch m).1)
  exact ⟨.inr rfl, hs.no_fault, hnonneg.trans_eq hocc.symm, hocc.trans_le (trimmedOcc_le_cap s ch m),
    (congrArg (· % 8) hocc).trans (trimmedOcc_aligned s ch m)⟩

end

@[simp] theorem afterGranules_params (gs : List GranuleCall) (s : State) : (afterGranules gs s).params = s.params := by
  induction gs generalizing s with
  | nil => rfl
  | cons g gs ih => simp [afterGranules, ih]

@[simp] theorem afterFrame_params (f : FrameCall) (s : State) : (afterFrame f s).params = s.params := by
  simp [afterFrame, afterBegin]

theorem State.BetweenFrames.betweenFrames_afterFrame {s : State} (hs : s.BetweenFrames) (hlegal : s.params.Legal) {f : FrameCall}
    (hlen : f.granuleCalls.length ≤ 32768) (hbound : GranulesWithinBound f.granuleCalls (afterBegin f s)) :
    (afterFrame f s).BetweenFrames :=
  ((hs.withinFrame_afterBegin hlegal f hlen).withinFrame_afterGranules hbound).betweenFrames_endFrame _ _ _ _

/-- Settles O48, by induction on the frames: each disciplined frame leads from between frames to between frames. -/
theorem disciplinedSessionNeverFaults : Obligations.DisciplinedSessionNeverFaults := by
  unfold Obligations.DisciplinedSessionNeverFaults
  intro fs
  induction fs with
  | nil => exact fun s _ hs _ => hs
  | cons f fs ih =>
    rintro s hlegal hs ⟨hlen, hbound, hrest⟩
    exact ih (afterFrame f s) (by rwa [afterFrame_params]) (hs.betweenFrames_afterFrame hlegal hlen hbound) hrest

end Sys2Proof.Machine
end

section
/-! PROOFS. 70_reset_and_hazards.md: the reset edge (R170), the capacity in FRAME_START (R172), and BEGIN_FRAME while OCC is negative
(R178). -/

namespace Sys2Proof.Machine

/-! ### The reset edge (R170) -/

/-- Settles O15: the edge is `resetEdge` whatever the block was doing, and an idle block is ready once `rst` is 0. -/
theorem resetEdgeFromEveryState : Obligations.ResetEdgeFromEveryState := by
  unfold Obligations.ResetEdgeFromEveryState
  intro s hrst
  refine ⟨⟨_, step_of_rst hrst, ?_⟩, rfl⟩
  simp [offered, cmdReady_iff]

/-! ### The capacity outside GRANULE_LOOP (R172) -/

section
variable {s : State}

/-- Between frames only a BEGIN_FRAME is admitted (60_exceptions.md R148). -/
theorem eq_beginFrame_of_legal {i : Instr} (hphase : s.phase ≠ .granuleLoop) (hlegal : legal s.phase i.opcode = true) :
    ∃ ver m fl ro, i = .beginFrame ver m fl ro := by
  cases i with
  | beginFrame ver m fl ro => exact ⟨ver, m, fl, ro, rfl⟩
  | maxBits | adjust | endFrame => exact absurd ((legal_granule_iff _ (by simp [Instr.opcode])).mp hlegal) hphase

/-- Outside GRANULE_LOOP a command either overwrites CAP, so that what it held leaves no trace, or ends in FAULT and passes it on. -/
theorem commit_with_cap (hphase : s.phase ≠ .granuleLoop) (i : Instr) (c : BitVec 12) :
    commit i { s with cap := c } = commit i s ∨
    ((commit i s).phase = .fault ∧ commit i { s with cap := c } = { commit i s with cap := c }) := by
  by_cases hfault : s.phase = .fault
  · rw [commit_of_fault i hfault, commit_of_fault (s := { s with cap := c }) i hfault]
    exact .inr ⟨hfault, rfl⟩
  cases hlegal : legal s.phase i.opcode with
  | false =>
    rw [commit_of_illegal hfault hlegal, commit_of_illegal (s := { s with cap := c }) hfault hlegal]
    exact .inr ⟨rfl, rfl⟩
  | true =>
    obtain ⟨ver, m, fl, ro, rfl⟩ := eq_beginFrame_of_legal hphase hlegal
    have hbetween := (legal_beginFrame_iff _).mp hlegal
    by_cases hro : zext ro = s.occInt
    · rw [commit_eq_of_exec (exec_beginFrame_of_match hbetween hro ver m fl),
        commit_eq_of_exec (exec_beginFrame_of_match (s := { s with cap := c }) hbetween hro ver m fl)]
      exact .inl rfl
    · rw [commit_eq_of_exec (exec_beginFrame_of_mismatch hbetween hro ver m fl),
        commit_eq_of_exec (exec_beginFrame_of_mismatch (s := { s with cap := c }) hbetween hro ver m fl)]
      exact .inr ⟨rfl, rfl⟩

/-- The sessions agree step by step: after each command the two states are equal, or both are in FAULT and differ in CAP alone. -/
theorem responses_with_cap (hphase : s.phase ≠ .granuleLoop) (c : BitVec 12) (cws : List CommandWord) :
    responses cws { s with cap := c } = responses cws s := by
  induction cws generalizing s with
  | nil => rfl
  | cons cw cws ih =>
    rcases commit_with_cap hphase (decode cw) c with hsame | ⟨hfault, hcap⟩
    · rw [responses, responses, answer, answer, hsame]
    · rw [responses, responses, answer, answer, hcap]
      exact congrArg (_ ++ ·) (ih (s := { commit (decode cw) s with port := .idle }) (by simp [hfault]))

end

/-- Settles O16: FRAME_START is a phase outside GRANULE_LOOP. -/
theorem startCapacityUnobservable : Obligations.StartCapacityUnobservable := by
  unfold Obligations.StartCapacityUnobservable
  intro s c cws hphase
  exact (responses_with_cap (by simp [hphase]) c cws).symm

/-! ### BEGIN_FRAME while OCC is negative (R178) -/

/-- Settles O26: RO is never negative, so it differs from OCC. -/
theorem negativeOccupancyDesyncs : Obligations.NegativeOccupancyDesyncs := by
  unfold Obligations.NegativeOccupancyDesyncs
  intro ver m fl ro s hphase hneg
  have hro : zext ro ≠ s.occInt := (hneg.trans_le (zext_nonneg ro)).ne'
  exact ⟨_, exec_beginFrame_of_mismatch hphase hro ver m fl, rfl, rfl, rfl, rfl⟩

end Sys2Proof.Machine
end
